-- ==== Sys2Proof/Word.lean ====
section
/-! DEFINITION. The words of the CHIP-8 VM core (spec/00_scope.md R5, R6): every value is an unsigned
integer of a fixed width, so each is a bit vector. -/

namespace Sys2Proof

/-- 8 bits: a general register, DT, ST, a memory byte, the immediate kk (R5: XLEN). -/
abbrev Byte := BitVec 8

/-- 16 bits: I, pc, a stack entry, an instruction word (R5: ILEN). -/
abbrev Word := BitVec 16

/-- 4 bits: one of the fields h1, h2, h3, h4 and the sprite height n (R91). -/
abbrev Nibble := BitVec 4

/-- A general register's number, 0 to 15 (R21). -/
abbrev Reg := BitVec 4

/-- A logical key, 0x0 to 0xF (R34, R274). -/
abbrev Key := BitVec 4

/-- The 12-bit absolute address nnn (R91). -/
abbrev Addr12 := BitVec 12

end Sys2Proof
end

