-- ==== Sys2Proof/Syntax.lean ====
section
/-! DEFINITION. The instructions: one constructor per row of spec/opcode_table.json, in the table's order
(spec/30_encoding.md R95). Each field has exactly the width R91 gives it. -/

namespace Sys2Proof

/-- The 34 instruction patterns (R95). In `shr` and `shl` the field y is part of the pattern and has no
effect (R99); it is kept so that no bit of the word is lost. -/
inductive Instr where
  /-- 00E0 `CLS` (R201) -/
  | cls
  /-- 00EE `RET` (R121) -/
  | ret
  /-- 1nnn `JP nnn` (R122) -/
  | jp (nnn : Addr12)
  /-- 2nnn `CALL nnn` (R123) -/
  | call (nnn : Addr12)
  /-- 3xkk `SE Vx, kk` (R124) -/
  | seVxKk (x : Reg) (kk : Byte)
  /-- 4xkk `SNE Vx, kk` (R125) -/
  | sneVxKk (x : Reg) (kk : Byte)
  /-- 5xy0 `SE Vx, Vy` (R126) -/
  | seVxVy (x y : Reg)
  /-- 6xkk `LD Vx, kk` (R151) -/
  | ldVxKk (x : Reg) (kk : Byte)
  /-- 7xkk `ADD Vx, kk` (R152) -/
  | addVxKk (x : Reg) (kk : Byte)
  /-- 8xy0 `LD Vx, Vy` (R153) -/
  | ldVxVy (x y : Reg)
  /-- 8xy1 `OR Vx, Vy` (R154) -/
  | or (x y : Reg)
  /-- 8xy2 `AND Vx, Vy` (R155) -/
  | and (x y : Reg)
  /-- 8xy3 `XOR Vx, Vy` (R156) -/
  | xor (x y : Reg)
  /-- 8xy4 `ADD Vx, Vy` (R157) -/
  | addVxVy (x y : Reg)
  /-- 8xy5 `SUB Vx, Vy` (R158) -/
  | sub (x y : Reg)
  /-- 8xy6 `SHR Vx` (R159) -/
  | shr (x y : Reg)
  /-- 8xy7 `SUBN Vx, Vy` (R160) -/
  | subn (x y : Reg)
  /-- 8xyE `SHL Vx` (R161) -/
  | shl (x y : Reg)
  /-- 9xy0 `SNE Vx, Vy` (R127) -/
  | sneVxVy (x y : Reg)
  /-- Annn `LD I, nnn` (R180) -/
  | ldINnn (nnn : Addr12)
  /-- Bnnn `JP V0, nnn` (R128) -/
  | jpV0 (nnn : Addr12)
  /-- Cxkk `RND Vx, kk` (R162) -/
  | rnd (x : Reg) (kk : Byte)
  /-- Dxyn `DRW Vx, Vy, n` (R203) -/
  | drw (x y : Reg) (n : Nibble)
  /-- Ex9E `SKP Vx` (R220) -/
  | skp (x : Reg)
  /-- ExA1 `SKNP Vx` (R221) -/
  | sknp (x : Reg)
  /-- Fx07 `LD Vx, DT` (R223) -/
  | ldVxDt (x : Reg)
  /-- Fx0A `LD Vx, K` (R222) -/
  | ldVxK (x : Reg)
  /-- Fx15 `LD DT, Vx` (R224) -/
  | ldDtVx (x : Reg)
  /-- Fx18 `LD ST, Vx` (R225) -/
  | ldStVx (x : Reg)
  /-- Fx1E `ADD I, Vx` (R181) -/
  | addIVx (x : Reg)
  /-- Fx29 `LD F, Vx` (R182) -/
  | ldFVx (x : Reg)
  /-- Fx33 `LD B, Vx` (R183) -/
  | ldBVx (x : Reg)
  /-- Fx55 `LD [I], Vx` (R184) -/
  | ldMiVx (x : Reg)
  /-- Fx65 `LD Vx, [I]` (R185) -/
  | ldVxMi (x : Reg)
  deriving DecidableEq, Repr

end Sys2Proof
end

