-- ==== Sys2Proof/Decode.lean ====
section
/-! DEFINITION. Decoding and encoding (spec/30_encoding.md). Decoding is a pure function of the 16-bit word,
total on all 65536 words (R94); a word outside the 34 patterns is rejected with its four nibbles (R97). -/

namespace Sys2Proof

/-- What the decoder answers: one of the 34 variants with its fields, or the rejected word's nibbles (R94). -/
inductive Decoded where
  | instr (i : Instr)
  | unsupported (h1 h2 h3 h4 : Nibble)
  deriving DecidableEq, Repr

/-- h1, the major opcode, bits 15:12 (R91). -/
def fieldH1 (w : Word) : Nibble := w.extractLsb' 12 4
/-- h2 = x, bits 11:8 (R91). -/
def fieldX (w : Word) : Nibble := w.extractLsb' 8 4
/-- h3 = y, bits 7:4 (R91). -/
def fieldY (w : Word) : Nibble := w.extractLsb' 4 4
/-- h4 = n, bits 3:0 (R91). -/
def fieldN (w : Word) : Nibble := w.extractLsb' 0 4
/-- kk, bits 7:0 (R91). -/
def fieldKk (w : Word) : Byte := w.extractLsb' 0 8
/-- nnn, bits 11:0 (R91). -/
def fieldNnn (w : Word) : Addr12 := w.extractLsb' 0 12

/-- "anything else": the word is rejected, and its nibbles are kept (R97). -/
def rejectWord (w : Word) : Decoded := .unsupported (fieldH1 w) (fieldX w) (fieldY w) (fieldN w)

/-- Major opcode 0: only the two whole words 00E0 and 00EE (R95 rows 1, 2; R98). -/
def decodeZ (w : Word) : Decoded :=
  if w = 0x00E0#16 then .instr .cls
  else if w = 0x00EE#16 then .instr .ret
  else rejectWord w

/-- Major opcode 8: the minor opcode is h4 (R95 rows 10 to 18; R98). -/
def decode8 (w : Word) : Decoded :=
  match (fieldN w).toNat with
  | 0x0 => .instr (.ldVxVy (fieldX w) (fieldY w))
  | 0x1 => .instr (.or (fieldX w) (fieldY w))
  | 0x2 => .instr (.and (fieldX w) (fieldY w))
  | 0x3 => .instr (.xor (fieldX w) (fieldY w))
  | 0x4 => .instr (.addVxVy (fieldX w) (fieldY w))
  | 0x5 => .instr (.sub (fieldX w) (fieldY w))
  | 0x6 => .instr (.shr (fieldX w) (fieldY w))
  | 0x7 => .instr (.subn (fieldX w) (fieldY w))
  | 0xE => .instr (.shl (fieldX w) (fieldY w))
  | _ => rejectWord w

/-- Major opcode E: the function is the low byte (R95 rows 24, 25; R98). -/
def decodeE (w : Word) : Decoded :=
  if fieldKk w = 0x9E#8 then .instr (.skp (fieldX w))
  else if fieldKk w = 0xA1#8 then .instr (.sknp (fieldX w))
  else rejectWord w

/-- Major opcode F: the function is the low byte (R95 rows 26 to 34; R98). -/
def decodeF (w : Word) : Decoded :=
  if fieldKk w = 0x07#8 then .instr (.ldVxDt (fieldX w))
  else if fieldKk w = 0x0A#8 then .instr (.ldVxK (fieldX w))
  else if fieldKk w = 0x15#8 then .instr (.ldDtVx (fieldX w))
  else if fieldKk w = 0x18#8 then .instr (.ldStVx (fieldX w))
  else if fieldKk w = 0x1E#8 then .instr (.addIVx (fieldX w))
  else if fieldKk w = 0x29#8 then .instr (.ldFVx (fieldX w))
  else if fieldKk w = 0x33#8 then .instr (.ldBVx (fieldX w))
  else if fieldKk w = 0x55#8 then .instr (.ldMiVx (fieldX w))
  else if fieldKk w = 0x65#8 then .instr (.ldVxMi (fieldX w))
  else rejectWord w

/-- The decoder on a 16-bit word (R94, R95, R97). -/
def decode (w : Word) : Decoded :=
  match (fieldH1 w).toNat with
  | 0x0 => decodeZ w
  | 0x1 => .instr (.jp (fieldNnn w))
  | 0x2 => .instr (.call (fieldNnn w))
  | 0x3 => .instr (.seVxKk (fieldX w) (fieldKk w))
  | 0x4 => .instr (.sneVxKk (fieldX w) (fieldKk w))
  | 0x5 => if fieldN w = 0#4 then .instr (.seVxVy (fieldX w) (fieldY w)) else rejectWord w
  | 0x6 => .instr (.ldVxKk (fieldX w) (fieldKk w))
  | 0x7 => .instr (.addVxKk (fieldX w) (fieldKk w))
  | 0x8 => decode8 w
  | 0x9 => if fieldN w = 0#4 then .instr (.sneVxVy (fieldX w) (fieldY w)) else rejectWord w
  | 0xA => .instr (.ldINnn (fieldNnn w))
  | 0xB => .instr (.jpV0 (fieldNnn w))
  | 0xC => .instr (.rnd (fieldX w) (fieldKk w))
  | 0xD => .instr (.drw (fieldX w) (fieldY w) (fieldN w))
  | 0xE => decodeE w
  | _ => decodeF w

/-- The instruction word of two bytes as memory holds them: the first byte is the high byte (R68). -/
def wordOfBytes (b0 b1 : Byte) : Word := b0 ++ b1

/-- The first byte of a word in memory, bits 15:8 (R68). -/
def highByte (w : Word) : Byte := w.extractLsb' 8 8

/-- The second byte of a word in memory, bits 7:0 (R68). -/
def lowByte (w : Word) : Byte := w.extractLsb' 0 8

/-- The decoder on the two bytes of an instruction, in the order memory holds them (R68, R69, R94). -/
def decodeBytes (b0 b1 : Byte) : Decoded := decode (wordOfBytes b0 b1)

/-- The instruction of an answer, if there is one. -/
def Decoded.toInstr : Decoded → Option Instr
  | .instr i => some i
  | .unsupported _ _ _ _ => none

/-- Format A, address (R92). -/
def formatA (op : Nibble) (nnn : Addr12) : Word := op ++ nnn
/-- Format I, register and immediate (R92). -/
def formatI (op : Nibble) (x : Reg) (kk : Byte) : Word := (op ++ x : Byte) ++ kk
/-- Format R, two registers and a minor opcode, and format D, two registers and a height (R92). -/
def formatR (op : Nibble) (x y : Reg) (m : Nibble) : Word := (op ++ x : Byte) ++ (y ++ m : Byte)
/-- Format X, register and function (R92). -/
def formatX (op : Nibble) (x : Reg) (fn : Byte) : Word := (op ++ x : Byte) ++ fn

/-- The word of an instruction (R92, R95). -/
def encode : Instr → Word
  | .cls => 0x00E0#16
  | .ret => 0x00EE#16
  | .jp nnn => formatA 0x1#4 nnn
  | .call nnn => formatA 0x2#4 nnn
  | .seVxKk x kk => formatI 0x3#4 x kk
  | .sneVxKk x kk => formatI 0x4#4 x kk
  | .seVxVy x y => formatR 0x5#4 x y 0x0#4
  | .ldVxKk x kk => formatI 0x6#4 x kk
  | .addVxKk x kk => formatI 0x7#4 x kk
  | .ldVxVy x y => formatR 0x8#4 x y 0x0#4
  | .or x y => formatR 0x8#4 x y 0x1#4
  | .and x y => formatR 0x8#4 x y 0x2#4
  | .xor x y => formatR 0x8#4 x y 0x3#4
  | .addVxVy x y => formatR 0x8#4 x y 0x4#4
  | .sub x y => formatR 0x8#4 x y 0x5#4
  | .shr x y => formatR 0x8#4 x y 0x6#4
  | .subn x y => formatR 0x8#4 x y 0x7#4
  | .shl x y => formatR 0x8#4 x y 0xE#4
  | .sneVxVy x y => formatR 0x9#4 x y 0x0#4
  | .ldINnn nnn => formatA 0xA#4 nnn
  | .jpV0 nnn => formatA 0xB#4 nnn
  | .rnd x kk => formatI 0xC#4 x kk
  | .drw x y n => formatR 0xD#4 x y n
  | .skp x => formatX 0xE#4 x 0x9E#8
  | .sknp x => formatX 0xE#4 x 0xA1#8
  | .ldVxDt x => formatX 0xF#4 x 0x07#8
  | .ldVxK x => formatX 0xF#4 x 0x0A#8
  | .ldDtVx x => formatX 0xF#4 x 0x15#8
  | .ldStVx x => formatX 0xF#4 x 0x18#8
  | .addIVx x => formatX 0xF#4 x 0x1E#8
  | .ldFVx x => formatX 0xF#4 x 0x29#8
  | .ldBVx x => formatX 0xF#4 x 0x33#8
  | .ldMiVx x => formatX 0xF#4 x 0x55#8
  | .ldVxMi x => formatX 0xF#4 x 0x65#8

/-- A row of the opcode map: a word w selects it when (w AND mask) = pattern (R95). -/
structure OpRow where
  pattern : Word
  mask : Word
  deriving DecidableEq, Repr

/-- The word selects the row (R95). -/
def OpRow.selects (r : OpRow) (w : Word) : Bool := w &&& r.mask == r.pattern

/-- The match and mask columns of the opcode map, in the order of R95. -/
def opcodeMap : List OpRow :=
  [⟨0x00E0, 0xFFFF⟩, ⟨0x00EE, 0xFFFF⟩, ⟨0x1000, 0xF000⟩, ⟨0x2000, 0xF000⟩, ⟨0x3000, 0xF000⟩,
   ⟨0x4000, 0xF000⟩, ⟨0x5000, 0xF00F⟩, ⟨0x6000, 0xF000⟩, ⟨0x7000, 0xF000⟩, ⟨0x8000, 0xF00F⟩] ++
  [⟨0x8001, 0xF00F⟩, ⟨0x8002, 0xF00F⟩, ⟨0x8003, 0xF00F⟩, ⟨0x8004, 0xF00F⟩, ⟨0x8005, 0xF00F⟩,
   ⟨0x8006, 0xF00F⟩, ⟨0x8007, 0xF00F⟩, ⟨0x800E, 0xF00F⟩, ⟨0x9000, 0xF00F⟩, ⟨0xA000, 0xF000⟩] ++
  [⟨0xB000, 0xF000⟩, ⟨0xC000, 0xF000⟩, ⟨0xD000, 0xF000⟩, ⟨0xE09E, 0xF0FF⟩, ⟨0xE0A1, 0xF0FF⟩,
   ⟨0xF007, 0xF0FF⟩, ⟨0xF00A, 0xF0FF⟩, ⟨0xF015, 0xF0FF⟩, ⟨0xF018, 0xF0FF⟩, ⟨0xF01E, 0xF0FF⟩] ++
  [⟨0xF029, 0xF0FF⟩, ⟨0xF033, 0xF0FF⟩, ⟨0xF055, 0xF0FF⟩, ⟨0xF065, 0xF0FF⟩]

/-- The row number, from 0, of an instruction in `opcodeMap` (R95). -/
def Instr.rowIndex : Instr → Nat
  | .cls => 0
  | .ret => 1
  | .jp _ => 2
  | .call _ => 3
  | .seVxKk _ _ => 4
  | .sneVxKk _ _ => 5
  | .seVxVy _ _ => 6
  | .ldVxKk _ _ => 7
  | .addVxKk _ _ => 8
  | .ldVxVy _ _ => 9
  | .or _ _ => 10
  | .and _ _ => 11
  | .xor _ _ => 12
  | .addVxVy _ _ => 13
  | .sub _ _ => 14
  | .shr _ _ => 15
  | .subn _ _ => 16
  | .shl _ _ => 17
  | .sneVxVy _ _ => 18
  | .ldINnn _ => 19
  | .jpV0 _ => 20
  | .rnd _ _ => 21
  | .drw _ _ _ => 22
  | .skp _ => 23
  | .sknp _ => 24
  | .ldVxDt _ => 25
  | .ldVxK _ => 26
  | .ldDtVx _ => 27
  | .ldStVx _ => 28
  | .addIVx _ => 29
  | .ldFVx _ => 30
  | .ldBVx _ => 31
  | .ldMiVx _ => 32
  | .ldVxMi _ => 33

/-- The instruction word whose bits are w as spec/opcode_table.json numbers them: every instruction is one
16-bit word, bits above `nbits` are 0 (R90). -/
def tableWord (nbits w : Nat) : Word := BitVec.ofNat 16 (w % 2 ^ nbits)

/-- The host's question: the instruction the decoder reads from the word's two bytes, the high byte first, as
memory holds them (R68). -/
def decodeTableWord (nbits w : Nat) : Option Instr :=
  (decodeBytes (highByte (tableWord nbits w)) (lowByte (tableWord nbits w))).toInstr

end Sys2Proof
end

