-- ==== Sys2Proof/Config.lean ====
section
/-! DEFINITION. What is fixed for the machine (spec/00_scope.md R5) and the free values. CLOCK_HZ,
RENDER_HZ and PIN_INTERFACE are parameters that no rule reads, and are left out (notes/assumptions/14.md). -/

namespace Sys2Proof

/-- MEM_SIZE (R5, R60). -/
abbrev Config.memSize : Nat := 4096

/-- PROGRAM_BASE: where a program is loaded and what pc is after reset (R5). -/
abbrev Config.programBase : Nat := 0x200

/-- PROGRAM_MAX: the largest program in bytes (R5, R294). -/
abbrev Config.programMax : Nat := 0xE00

/-- The size of the parameter FONT: 16 glyphs of 5 bytes (R5, R67). -/
abbrev Config.fontSize : Nat := 80

/-- The bytes of the conventional font, digits 0 to F (R67). PRESUMED: the spec takes them from general
knowledge (G1) as the default of its open parameter FONT. Unsafe for a claim that reads them; the model's
`State.font` is any 80 bytes, and only `State.reset` holds these (notes/assumptions/5.md). -/
def Config.defaultFontBytes : List Byte :=
  [0xF0, 0x90, 0x90, 0x90, 0xF0,  0x20, 0x60, 0x20, 0x20, 0x70,
   0xF0, 0x10, 0xF0, 0x80, 0xF0,  0xF0, 0x10, 0xF0, 0x10, 0xF0] ++
  [0x90, 0x90, 0xF0, 0x10, 0x10,  0xF0, 0x80, 0xF0, 0x10, 0xF0,
   0xF0, 0x80, 0xF0, 0x90, 0xF0,  0xF0, 0x10, 0x20, 0x40, 0x40] ++
  [0xF0, 0x90, 0xF0, 0x90, 0xF0,  0xF0, 0x90, 0xF0, 0x10, 0xF0,
   0xF0, 0x90, 0xF0, 0x90, 0x90,  0xE0, 0x90, 0xE0, 0x90, 0xE0] ++
  [0xF0, 0x80, 0x80, 0x80, 0xF0,  0xE0, 0x90, 0x90, 0x90, 0xE0,
   0xF0, 0x80, 0xF0, 0x80, 0xF0,  0xF0, 0x80, 0xF0, 0x80, 0x80]

/-- The default of FONT (R67) as 80 bytes. -/
def Config.defaultFont : Vector Byte Config.fontSize :=
  ⟨⟨Config.defaultFontBytes⟩, rfl⟩

/-- The free bytes of the machine: the random byte of Cxkk (R162, D14, U11) and what VF holds after 8xy4,
8xy5, 8xy6, 8xy7 or 8xyE with x = F (R163, D10, U10). Draw number k is `Config.draw8 k`; nothing is known of
it (notes/assumptions/6.md). -/
opaque Config.draw8 : Nat → Byte

end Sys2Proof
end

