-- ==== Sys2Proof/Machine/State.lean ====
section
/-! DEFINITION. The state of the core as plain data (spec/10_state.md R20 to R41), the events the environment
offers it (spec/00_scope.md R8), its fault record (spec/60_exceptions.md R251), why a step can stop, and the state
after reset (R40). -/

namespace Sys2Proof.Machine

/-- WAIT, "a two-state machine" (R35, R226). -/
inductive Wait where
  | running
  | awaitingKey (r : Reg)
  deriving DecidableEq, Repr

/-- What FAULT holds after a fault, with the information R251 records. -/
inductive FaultRecord where
  /-- code 1: the fetched word matches no pattern; its four nibbles (R97) -/
  | unsupportedInstruction (h1 h2 h3 h4 : Nibble)
  /-- code 2: pc > 4094; the pc (R69) -/
  | fetchOutOfRange (pc : Word)
  /-- code 3: a data access past 4095; the first address outside (R63, R64) -/
  | dataOutOfRange (addr : Nat)
  /-- code 4: a call with SP = 15 (R123) -/
  | stackOverflow
  /-- code 5: a return with SP = 0 (R121) -/
  | stackUnderflow
  /-- code 6: Ex9E or ExA1 with V[x] > 15; V[x] (R220, R221) -/
  | badKeyIndex (v : Byte)
  /-- code 7: Fx29 with V[x] > 15; V[x] (R182) -/
  | badFontDigit (v : Byte)
  deriving DecidableEq, Repr

/-- The input events of the core's interface (R8, R255). A key is a 4-bit value, so no event carries a key
above 15 (U19). -/
inductive Event where
  /-- one tick of the instruction clock: the core performs one `step()` (R258) -/
  | instrTick
  /-- one tick of the 60 Hz clock (R259) -/
  | timerTick
  /-- one tick of the render clock: a snapshot, no change (R262) -/
  | renderTick
  /-- a logical key goes down (R260) -/
  | press (k : Key)
  /-- a logical key goes up (R261) -/
  | release (k : Key)
  /-- reset and program load (R293) -/
  | load (rom : List Byte)
  deriving DecidableEq, Repr

/-- MEM as address and byte pairs in one canonical form (`Memory.wf`): addresses strictly rising, no entry equal
to what an unlisted address reads as, the reset contents of R65 (notes/assumptions/8.md). -/
abbrev Memory := List Host.Cell

/-- FB: 32 rows of 64 one-bit cells, 1 = lit (R20, R33, R200). Column c of a row is its bit 63 - c, so that the most
significant bit is the leftmost pixel, as in a sprite byte (R202); `Framebuffer.cell` is the one reader. -/
abbrev Framebuffer := Vector (BitVec 64) 32

/-- The whole state (R20), and three fields of the model's own: `font`, `draws`, `events`. -/
structure State where
  /-- V0 to VF (R21) -/
  v : Vector Byte 16
  /-- I (R24) -/
  i : Word
  /-- the program counter (R25) -/
  pc : Word
  /-- SP, 8 bits, legal values 0 to 15 (R28) -/
  sp : Byte
  /-- STACK (R29) -/
  stack : Vector Word 16
  /-- DT (R30) -/
  dt : Byte
  /-- ST (R31) -/
  st : Byte
  /-- MEM (R32) -/
  mem : Memory
  /-- FB (R33) -/
  fb : Framebuffer
  /-- KEYS: entry k is true when logical key k is pressed (R34) -/
  keys : Vector Bool 16
  /-- WAIT (R35) -/
  wait : Wait
  /-- BUZZ (R36) -/
  buzz : Bool
  /-- FAULT (R37) -/
  fault : Option FaultRecord
  /-- the model's own: the parameter FONT (R5, R67, U15), which no step changes (notes/assumptions/5.md) -/
  font : Vector Byte 80
  /-- the model's own: how many free bytes have been drawn (R162, R163; notes/assumptions/6.md) -/
  draws : Nat
  /-- the model's own: the events the environment will offer next, first one first; an empty list means an
  instruction tick (R39(d), R257; notes/assumptions/1.md) -/
  events : List Event
  deriving DecidableEq, Repr

/-- Why the machine stops with a fault of the MODEL. The seven faults of R251 are not among these: the spec says
what they do (FAULT is written and the core is halted, R250, R263), so they are next states. -/
inductive Fault where
  /-- Raised by CALL and RET in a state with SP > 15, which the spec says does not exist (R28, R45) and no step
  from a state with SP in 0 to 15 reaches. Safe: the model stops (notes/assumptions/7.md). -/
  | stackPointerOutOfRange (sp : Byte)
  deriving DecidableEq, Repr

/-- Why the machine refuses. -/
inductive Refusal where
  /-- An instruction that has no meaning yet, by its mnemonic; raised by `exec` alone. Safe. -/
  | notModelled (mnemonic : String)
  /-- `Load` of a ROM of more than 0xE00 bytes is refused, with its length: no state results (R294).
  Raised by the event `load` alone. Safe: it is the outcome the spec asks for. -/
  | loadTooLarge (len : Nat)
  deriving DecidableEq, Repr

/-- The state right after reset with an empty program (R40, R293). The zeros of V, I, SP, DT, ST, FB, KEYS, WAIT,
BUZZ are the spec's decision D4 (notes/assumptions/10.md); STACK's are the model's (notes/assumptions/4.md); `font`
is the default of FONT (notes/assumptions/5.md). -/
def State.reset : State where
  v := Vector.replicate 16 0
  i := 0
  pc := 0x200
  sp := 0
  stack := Vector.replicate 16 0
  dt := 0
  st := 0
  mem := []
  fb := Vector.replicate 32 0
  keys := Vector.replicate 16 false
  wait := .running
  buzz := false
  fault := none
  font := Config.defaultFont
  draws := 0
  events := []

end Sys2Proof.Machine
end

