-- ==== Sys2Proof/Machine/Ops.lean ====
section
/-! DEFINITION. The named operations over memory, registers, the stack and FAULT that the meanings are written
with (spec/20_memory.md R63, R64, R69; spec/10_state.md; spec/60_exceptions.md R250). -/

namespace Sys2Proof.Machine

/-- The answer of a meaning and of a step. -/
abbrev Answer := Host.Outcome State Fault Refusal

/-! ### Memory -/

/-- What an address that nothing has written reads as: the reset contents, FONT in 0x000 to 0x04F and 0
elsewhere (R65, R66). -/
def Memory.unlisted (font : Vector Byte 80) (a : Nat) : Byte :=
  if h : a < 80 then font[a] else 0

/-- The byte at an address (R60, R74). -/
def Memory.read (font : Vector Byte 80) : Memory → Nat → Byte
  | [], a => Memory.unlisted font a
  | (k, b) :: m, a => if k = a then b else Memory.read font m a

/-- Puts an entry before the first entry of a higher address. -/
def Memory.insert (a : Nat) (b : Byte) : Memory → Memory
  | [] => [(a, b)]
  | (k, c) :: m => if a < k then (a, b) :: (k, c) :: m else (k, c) :: Memory.insert a b m

/-- Takes the entry of an address out. -/
def Memory.erase (a : Nat) (m : Memory) : Memory := m.filter fun c => c.1 != a

/-- Writes one byte (R64). Writing what the address reads as unlisted leaves no entry. -/
def Memory.write (font : Vector Byte 80) (m : Memory) (a : Nat) (b : Byte) : Memory :=
  if b = Memory.unlisted font a then Memory.erase a m else Memory.insert a b (Memory.erase a m)

/-- Writes bytes at rising addresses from a (R64, R72). -/
def Memory.writeList (font : Vector Byte 80) : Memory → Nat → List Byte → Memory
  | m, _, [] => m
  | m, a, b :: bs => Memory.writeList font (Memory.write font m a b) (a + 1) bs

/-- The canonical form: addresses strictly rising and inside 0 to 4095, no entry equal to what its address reads
as unlisted. -/
abbrev Memory.wf (font : Vector Byte 80) (m : Memory) : Prop :=
  m.Pairwise (fun c d => c.1 < d.1) ∧ ∀ c ∈ m, c.1 < Config.memSize ∧ c.2 ≠ Memory.unlisted font c.1

/-- MEM[a] (R7). -/
def State.byteAt (s : State) (a : Nat) : Byte := Memory.read s.font s.mem a

/-- The n bytes from a, first byte first, without a range check. -/
def State.bytesFrom (s : State) (a : Nat) : Nat → List Byte
  | 0 => []
  | n + 1 => s.byteAt a :: s.bytesFrom (a + 1) n

/-- `MemRead(addr, n)`: the whole range is checked first, also for n = 0; the fault carries the first address
outside (R63, R78; decision D8). -/
def State.memRead (s : State) (addr n : Nat) : Except FaultRecord (List Byte) :=
  if Config.memSize < addr + n then .error (.dataOutOfRange (max addr Config.memSize))
  else .ok (s.bytesFrom addr n)

/-- `MemWrite(addr, n, v)`: the whole range is checked before any byte is written (R64, R78; decision D8). -/
def State.memWrite (s : State) (addr : Nat) (bytes : List Byte) : Except FaultRecord State :=
  if Config.memSize < addr + bytes.length then .error (.dataOutOfRange (max addr Config.memSize))
  else .ok { s with mem := Memory.writeList s.font s.mem addr bytes }

/-- Instruction fetch: both bytes must be inside 0 to 4095, else `FetchOutOfRange(pc)` (R69); the byte at pc is
the high byte (R68). -/
def State.fetch (s : State) : Except FaultRecord (Byte × Byte) :=
  if 4095 < s.pc.toNat + 1 then .error (.fetchOutOfRange s.pc)
  else .ok (s.byteAt s.pc.toNat, s.byteAt (s.pc.toNat + 1))

/-! ### Registers -/

/-- V[x] (R7, R21). No register is hard-wired. -/
def State.reg (s : State) (x : Reg) : Byte := s.v[x.toNat]'x.isLt

/-- V[x] <- b (R7, R21). -/
def State.setReg (s : State) (x : Reg) (b : Byte) : State := { s with v := s.v.set x.toNat b x.isLt }

/-- The number of VF, V[15] (R21, R22). -/
abbrev VF : Reg := 0xF#4

/-- V[k] <- bytes[0], V[k+1] <- bytes[1], ...; a number past 15 is no register. -/
def writeRegs : Vector Byte 16 → Nat → List Byte → Vector Byte 16
  | v, _, [] => v
  | v, k, b :: bs => writeRegs (v.setIfInBounds k b) (k + 1) bs

/-- V[0] <- bytes[0], V[1] <- bytes[1], ... (R185). -/
def State.setRegsFrom0 (s : State) (bytes : List Byte) : State := { s with v := writeRegs s.v 0 bytes }

/-- The next free byte, `draw8()` (R162, R163; decisions D10, D14). -/
def State.draw (s : State) : Byte := Config.draw8 s.draws

/-- The free byte has been used: the next draw is another one. -/
def State.countDraw (s : State) : State := { s with draws := s.draws + 1 }

/-- `write2(x, result, flag)`: V[x] <- result and VF <- flag; when x is VF itself the two writes hit one register
and it is left with a free byte (R163, R23; decision D10, U10). -/
def State.write2 (s : State) (x : Reg) (result flag : Byte) : State :=
  if x = VF then (s.setReg VF s.draw).countDraw else (s.setReg x result).setReg VF flag

/-! ### The program counter -/

/-- pc <- target (R7, R25). -/
def State.setPc (s : State) (target : Word) : State := { s with pc := target }

/-- pc <- pc + 2, the plain advance (R26). -/
def State.advance (s : State) : State := s.setPc (s.pc + 2)

/-- pc <- pc + 4 when the condition holds, else pc + 2 (R26, R120). -/
def State.skipIf (s : State) (c : Bool) : State := s.setPc (if c then s.pc + 4 else s.pc + 2)

/-! ### Taking a fault, and what there is instead of a return -/

/-- `raise`: FAULT <- the record; nothing else changes, nothing is saved, control goes nowhere (R250, R254, R266;
decisions D2, D3). -/
def State.raise (s : State) (f : FaultRecord) : State := { s with fault := some f }

/-- Ends an instruction whose one check may have failed: the state it made, or the fault taken in the state it
began with (R253, R254). -/
def State.settle (s : State) : Except FaultRecord State → Answer
  | .ok t => .next t
  | .error f => .next (s.raise f)

/-- `Load(rom)`, the only way out of a fault (R263, R267, R290): a ROM of more than 0xE00 bytes is refused (R294,
D23); otherwise MEM is zeroed, given FONT, then the program from 0x200, and every other element takes its reset
value (R293, R40). The model's own fields are carried over (notes/assumptions/12.md). -/
def State.load (s : State) (rom : List Byte) : Answer :=
  if Config.programMax < rom.length then .refused (.loadTooLarge rom.length)
  else .next { State.reset with
    mem := Memory.writeList s.font [] Config.programBase rom
    font := s.font, draws := s.draws, events := s.events }

/-! ### The stack -/

/-- STACK[SP] <- pc; SP <- SP + 1; pc <- target (R123), the pushed value being the address of the call itself.
SP = 15 faults before any write (decision D6). SP > 15 is no state of the core. -/
def State.callTo (s : State) (target : Word) : Answer :=
  if h : s.sp.toNat < 15 then
    .next { s with stack := s.stack.set s.sp.toNat s.pc (by omega), sp := s.sp + 1, pc := target }
  else if s.sp.toNat = 15 then .next (s.raise .stackOverflow)
  else .fault (.stackPointerOutOfRange s.sp)

/-- pc <- STACK[SP - 1] + 2; SP <- SP - 1 (R121). SP = 0 faults before any write (decision D7). SP > 15 is no
state of the core. -/
def State.returnFromCall (s : State) : Answer :=
  if s.sp.toNat = 0 then .next (s.raise .stackUnderflow)
  else if h : s.sp.toNat ≤ 15 then
    .next { s with pc := s.stack[s.sp.toNat - 1]'(by omega) + 2, sp := s.sp - 1 }
  else .fault (.stackPointerOutOfRange s.sp)

/-! ### Keys -/

/-- `k in KEYS` (R7, R34). -/
def State.keyDown (s : State) (k : Key) : Bool := s.keys[k.toNat]'k.isLt

/-- Puts key k in KEYS or takes it out; idempotent (R34). -/
def State.setKey (s : State) (k : Key) (down : Bool) : State := { s with keys := s.keys.set k.toNat down k.isLt }

end Sys2Proof.Machine
end

