-- ==== Sys2Proof/Machine/Operands.lean ====
section
/-! DEFINITION. How operands and addresses are formed (spec/30_encoding.md R93, spec/42_index_memory.md R186):
nothing is sign-extended, scaled or relative to pc. -/

namespace Sys2Proof.Machine

/-- zext_16(nnn): an absolute target or an index value (R93). -/
def zext16 (nnn : Addr12) : Word := nnn.setWidth 16

/-- The target of Bnnn, zext_16(nnn) + zext_16(V[0]), not reduced to 12 bits (R93, R128). -/
def State.targetV0 (s : State) (nnn : Addr12) : Word := zext16 nnn + (s.reg 0).setWidth 16

/-- The base of every data access, I as an unbounded integer: the effective address of byte k is this + k, with no
wrap at 4096 or at 65536 (R78, R186; decision D8). -/
def State.dataBase (s : State) : Nat := s.i.toNat

/-- The key a register names: a value above 15 is `BadKeyIndex` (R220, R221; decision D11). -/
def keyOperand (b : Byte) : Except FaultRecord Key :=
  if 15 < b.toNat then .error (.badKeyIndex b) else .ok (b.setWidth 4)

/-- font_addr(digit) = digit * 5 for a digit 0 to 15 (R67, R182); a value above 15 is `BadFontDigit` (decision
D12). -/
def fontAddr (b : Byte) : Except FaultRecord Word :=
  if 15 < b.toNat then .error (.badFontDigit b) else .ok (b.setWidth 16 * 5)

/-- The decimal digits of a byte: hundreds, tens, ones (R183). -/
def bcdDigits (b : Byte) : List Byte :=
  [BitVec.ofNat 8 (b.toNat / 100), BitVec.ofNat 8 (b.toNat / 10 % 10), BitVec.ofNat 8 (b.toNat % 10)]

/-- V[0], ..., V[x]: x + 1 bytes (R184). -/
def State.regsUpTo (s : State) (x : Reg) : List Byte := s.v.toList.take (x.toNat + 1)

end Sys2Proof.Machine
end

