-- ==== Sys2Proof/Machine/Control.lean ====
section
/-! DEFINITION. Return, jump, call, skips and the indexed jump (spec/40_control_flow.md). A target is not checked
when the transfer executes (R120). -/

namespace Sys2Proof.Machine

/-- 00EE `RET` (R121). -/
def execRet (s : State) : Answer := s.returnFromCall

/-- 1nnn `JP nnn` (R122). -/
def execJp (nnn : Addr12) (s : State) : Answer := .next (s.setPc (zext16 nnn))

/-- 2nnn `CALL nnn` (R123). -/
def execCall (nnn : Addr12) (s : State) : Answer := s.callTo (zext16 nnn)

/-- 3xkk `SE Vx, kk` (R124). -/
def execSeVxKk (x : Reg) (kk : Byte) (s : State) : Answer := .next (s.skipIf (s.reg x == kk))

/-- 4xkk `SNE Vx, kk` (R125). -/
def execSneVxKk (x : Reg) (kk : Byte) (s : State) : Answer := .next (s.skipIf (s.reg x != kk))

/-- 5xy0 `SE Vx, Vy` (R126). -/
def execSeVxVy (x y : Reg) (s : State) : Answer := .next (s.skipIf (s.reg x == s.reg y))

/-- 9xy0 `SNE Vx, Vy` (R127). -/
def execSneVxVy (x y : Reg) (s : State) : Answer := .next (s.skipIf (s.reg x != s.reg y))

/-- Bnnn `JP V0, nnn` (R128). -/
def execJpV0 (nnn : Addr12) (s : State) : Answer := .next (s.setPc (s.targetV0 nnn))

end Sys2Proof.Machine
end

