-- ==== Sys2Proof/Machine/Flags.lean ====
section
/-! DEFINITION. The values VF takes as a flag (spec/10_state.md R22, spec/41_load_alu.md R150): always 0 or 1 as a
byte, computed from the operands as they were before the instruction (R163). -/

namespace Sys2Proof.Machine

/-- A flag as a register value: true = 1, false = 0 (R22; decision D20). -/
def flagByte (c : Bool) : Byte := if c then 1 else 0

/-- Carry out of a + b: 1 when the 9-bit sum is 256 or more (R150, R157). -/
def carryFlag (a b : Byte) : Byte := flagByte (decide (256 ≤ a.toNat + b.toNat))

/-- No borrow in a - b: 1 when a >= b, equality included (R150, R158, R160). -/
def noBorrowFlag (a b : Byte) : Byte := flagByte (decide (b.toNat ≤ a.toNat))

/-- The bit a shift right by one loses, bit 0 (R150, R159). -/
def shiftedOutRight (a : Byte) : Byte := flagByte (a.getLsbD 0)

/-- The bit a shift left by one loses, bit 7 (R150, R161). -/
def shiftedOutLeft (a : Byte) : Byte := flagByte (a.getLsbD 7)

end Sys2Proof.Machine
end

