-- ==== Sys2Proof/Machine/Display.lean ====
section
/-! DEFINITION. The framebuffer, the XOR sprite engine, and 00E0 and Dxyn (spec/43_display.md). -/

namespace Sys2Proof.Machine

/-- FB[r][c]: column c of row r (R200). -/
def Framebuffer.cell (fb : Framebuffer) (r : Fin 32) (c : Fin 64) : Bool := fb[r].getMsbD c

/-- A row with column c lit and every other column dark. -/
def columnMask (c : Fin 64) : BitVec 64 := 1#64 <<< (63 - c.val)

/-- FB[r][c] <- b (R200). -/
def Framebuffer.setCell (fb : Framebuffer) (r : Fin 32) (c : Fin 64) (b : Bool) : Framebuffer :=
  fb.set r (if b then fb[r] ||| columnMask c else fb[r] &&& ~~~columnMask c)

/-- The all-dark framebuffer, what `clear()` leaves (R201). -/
def Framebuffer.dark : Framebuffer := Vector.replicate 32 0

/-- Row (y0 + r) mod 32 (R202). -/
def wrapRow (n : Nat) : Fin 32 := ⟨n % 32, Nat.mod_lt _ (by decide)⟩

/-- Column (x0 + c) mod 64 (R202). -/
def wrapCol (n : Nat) : Fin 64 := ⟨n % 64, Nat.mod_lt _ (by decide)⟩

/-- What the sprite engine works on: the framebuffer and the collision bit so far (R202). -/
structure Drawing where
  fb : Framebuffer
  collision : Bool
  deriving DecidableEq, Repr

/-- One pixel: new = old XOR incoming; a lit cell hit by a 1 bit is a collision, and a collision stays (R202). -/
def drawPixel (d : Drawing) (row : Fin 32) (col : Fin 64) (bit : Bool) : Drawing :=
  { fb := d.fb.setCell row col (d.fb.cell row col ^^ bit)
    collision := d.collision || (d.fb.cell row col && bit) }

/-- The columns of one sprite row, left to right from column index c: bit 7 - c of the byte goes to column
(x0 + c) mod 64 (R202). -/
def drawColumns (x0 : Nat) (row : Fin 32) (b : Byte) (d : Drawing) : List Nat → Drawing
  | [] => d
  | c :: cs => drawColumns x0 row b (drawPixel d row (wrapCol (x0 + c)) (b.getLsbD (7 - c))) cs

/-- The rows of a sprite, from sprite row index r: byte r goes to row (y0 + r) mod 32 (R202). -/
def drawRows (x0 y0 : Nat) (r : Nat) (d : Drawing) : List Byte → Drawing
  | [] => d
  | b :: bs => drawRows x0 y0 (r + 1) (drawColumns x0 (wrapRow (y0 + r)) b d [0, 1, 2, 3, 4, 5, 6, 7]) bs

/-- `draw_sprite(x0, y0, s)`: the framebuffer after, and the collision bit (R202). -/
def drawSprite (fb : Framebuffer) (x0 y0 : Nat) (sprite : List Byte) : Drawing :=
  drawRows x0 y0 0 { fb := fb, collision := false } sprite

/-- The effect of Dxyn once its n sprite bytes have been read: the origin is read before VF is written, the
sprite is drawn, VF takes the collision bit (R203). -/
def State.drawAt (s : State) (x y : Reg) (sprite : List Byte) : State :=
  let d := drawSprite s.fb (s.reg x).toNat (s.reg y).toNat sprite
  { s with fb := d.fb }.setReg VF (flagByte d.collision)

/-- 00E0 `CLS` (R201). -/
def execCls (s : State) : Answer := .next { s with fb := Framebuffer.dark }.advance

/-- Dxyn `DRW Vx, Vy, n` (R203): the bytes are read, and the range checked, before anything changes. -/
def execDrw (x y : Reg) (n : Nibble) (s : State) : Answer :=
  s.settle ((s.memRead s.dataBase n.toNat).map fun sprite => (s.drawAt x y sprite).advance)

end Sys2Proof.Machine
end

