-- ==== Sys2Proof/Machine/IndexMemory.lean ====
section
/-! DEFINITION. The index register and memory transfers (spec/42_index_memory.md). The transfers leave I as it is
(R186; decision D18). -/

namespace Sys2Proof.Machine

/-- Annn `LD I, nnn` (R180). -/
def execLdINnn (nnn : Addr12) (s : State) : Answer := .next { s with i := zext16 nnn }.advance

/-- Fx1E `ADD I, Vx` (R181): modulo 65536 (decision D9), VF is never written. -/
def execAddIVx (x : Reg) (s : State) : Answer := .next { s with i := s.i + (s.reg x).setWidth 16 }.advance

/-- Fx29 `LD F, Vx` (R182). -/
def execLdFVx (x : Reg) (s : State) : Answer :=
  s.settle ((fontAddr (s.reg x)).map fun a => { s with i := a }.advance)

/-- Fx33 `LD B, Vx` (R183). -/
def execLdBVx (x : Reg) (s : State) : Answer :=
  s.settle ((s.memWrite s.dataBase (bcdDigits (s.reg x))).map State.advance)

/-- Fx55 `LD [I], Vx` (R184). -/
def execLdMiVx (x : Reg) (s : State) : Answer :=
  s.settle ((s.memWrite s.dataBase (s.regsUpTo x)).map State.advance)

/-- Fx65 `LD Vx, [I]` (R185): the bytes are read before any register is written. -/
def execLdVxMi (x : Reg) (s : State) : Answer :=
  s.settle ((s.memRead s.dataBase (x.toNat + 1)).map fun bytes => (s.setRegsFrom0 bytes).advance)

end Sys2Proof.Machine
end

