-- ==== Sys2Proof/Machine/KeysTimers.lean ====
section
/-! DEFINITION. The key and timer instructions (spec/44_keys_timers.md sections 1 and 3). -/

namespace Sys2Proof.Machine

/-- Ex9E `SKP Vx` (R220). -/
def execSkp (x : Reg) (s : State) : Answer :=
  s.settle ((keyOperand (s.reg x)).map fun k => s.skipIf (s.keyDown k))

/-- ExA1 `SKNP Vx` (R221). -/
def execSknp (x : Reg) (s : State) : Answer :=
  s.settle ((keyOperand (s.reg x)).map fun k => s.skipIf (!s.keyDown k))

/-- Fx0A `LD Vx, K` (R222): pc advances now; V[x] is written by the press that ends the wait (R227). -/
def execLdVxK (x : Reg) (s : State) : Answer := .next { s with wait := .awaitingKey x }.advance

/-- Fx07 `LD Vx, DT` (R223). -/
def execLdVxDt (x : Reg) (s : State) : Answer := .next (s.setReg x s.dt).advance

/-- Fx15 `LD DT, Vx` (R224). -/
def execLdDtVx (x : Reg) (s : State) : Answer := .next { s with dt := s.reg x }.advance

/-- Fx18 `LD ST, Vx` (R225): BUZZ is not touched. -/
def execLdStVx (x : Reg) (s : State) : Answer := .next { s with st := s.reg x }.advance

end Sys2Proof.Machine
end

