-- ==== Sys2Proof/Machine/LoadAlu.lean ====
section
/-! DEFINITION. Register load, arithmetic, logic, shift and random (spec/41_load_alu.md). Every result is a byte,
arithmetic is modulo 256 (R150), no instruction of this file faults, and each ends with pc <- pc + 2. -/

namespace Sys2Proof.Machine

/-- 6xkk `LD Vx, kk` (R151). -/
def execLdVxKk (x : Reg) (kk : Byte) (s : State) : Answer := .next (s.setReg x kk).advance

/-- 7xkk `ADD Vx, kk` (R152): VF is no flag here. -/
def execAddVxKk (x : Reg) (kk : Byte) (s : State) : Answer := .next (s.setReg x (s.reg x + kk)).advance

/-- 8xy0 `LD Vx, Vy` (R153). -/
def execLdVxVy (x y : Reg) (s : State) : Answer := .next (s.setReg x (s.reg y)).advance

/-- 8xy1 `OR Vx, Vy` (R154): VF is not written as a flag (decision D19). -/
def execOr (x y : Reg) (s : State) : Answer := .next (s.setReg x (s.reg x ||| s.reg y)).advance

/-- 8xy2 `AND Vx, Vy` (R155; decision D19). -/
def execAnd (x y : Reg) (s : State) : Answer := .next (s.setReg x (s.reg x &&& s.reg y)).advance

/-- 8xy3 `XOR Vx, Vy` (R156; decision D19). -/
def execXor (x y : Reg) (s : State) : Answer := .next (s.setReg x (s.reg x ^^^ s.reg y)).advance

/-- 8xy4 `ADD Vx, Vy` (R157). -/
def execAddVxVy (x y : Reg) (s : State) : Answer :=
  .next (s.write2 x (s.reg x + s.reg y) (carryFlag (s.reg x) (s.reg y))).advance

/-- 8xy5 `SUB Vx, Vy` (R158). -/
def execSub (x y : Reg) (s : State) : Answer :=
  .next (s.write2 x (s.reg x - s.reg y) (noBorrowFlag (s.reg x) (s.reg y))).advance

/-- 8xy6 `SHR Vx` (R159): V[y] is neither read nor written (R99; decision D19). -/
def execShr (x _y : Reg) (s : State) : Answer :=
  .next (s.write2 x (s.reg x >>> 1) (shiftedOutRight (s.reg x))).advance

/-- 8xy7 `SUBN Vx, Vy` (R160). -/
def execSubn (x y : Reg) (s : State) : Answer :=
  .next (s.write2 x (s.reg y - s.reg x) (noBorrowFlag (s.reg y) (s.reg x))).advance

/-- 8xyE `SHL Vx` (R161): V[y] is neither read nor written (R99; decision D19). -/
def execShl (x _y : Reg) (s : State) : Answer :=
  .next (s.write2 x (s.reg x <<< 1) (shiftedOutLeft (s.reg x))).advance

/-- Cxkk `RND Vx, kk` (R162): the free byte under the mask kk (decision D14, U11). -/
def execRnd (x : Reg) (kk : Byte) (s : State) : Answer := .next (s.setReg x (s.draw &&& kk)).countDraw.advance

end Sys2Proof.Machine
end

