-- ==== Sys2Proof/Machine/Events.lean ====
section
/-! DEFINITION. Every event of the core's interface, each handled whole (spec/60_exceptions.md R255 to R264,
spec/44_keys_timers.md R227 to R231), the outputs (spec/00_scope.md R8), and the event a step handles. -/

namespace Sys2Proof.Machine

/-- The action of `timer_tick()` (R229): DT counts down to 0; BUZZ is on for a tick that finds ST > 0, before the
decrement, else off (C3). The same whether running or suspended (R231; decision D17). -/
def State.countDown (s : State) : State :=
  { s with
    dt := if s.dt.toNat > 0 then s.dt - 1 else s.dt
    st := if s.st.toNat > 0 then s.st - 1 else s.st
    buzz := decide (s.st.toNat > 0) }

/-- The action of `press(k)` (R227): k enters KEYS, also when the press ends a wait (decision D16); a waiting
Fx0A gets its register written now (C4) and the core runs again. -/
def State.pressKey (s : State) (k : Key) : State :=
  match s.wait with
  | .running => s.setKey k true
  | .awaitingKey r => { (s.setKey k true).setReg r (k.setWidth 8) with wait := .running }

/-- The action of `release(k)` (R228): only KEYS changes. -/
def State.releaseKey (s : State) (k : Key) : State := s.setKey k false

/-- FAULT is not `None`: the core is halted (R263). -/
def State.halted (s : State) : Bool := s.fault.isSome

/-- An event that a halted core ignores (R259, R260, R261, R263). -/
def State.unlessHalted (s t : State) : State := if s.halted then s else t

/-- The execution of a decoded word: an unsupported one faults (R97, R258). -/
def State.execDecoded (s : State) : Decoded → Answer
  | .instr i => exec i s
  | .unsupported h1 h2 h3 h4 => .next (s.raise (.unsupportedInstruction h1 h2 h3 h4))

/-- `InstrTick`, `step()` (R258): nothing when halted, nothing when suspended, else fetch, decode, execute, with the
checks in that order (R253). -/
def instrTick (s : State) : Answer :=
  if s.halted then .next s
  else if s.wait ≠ .running then .next s
  else
    match s.fetch with
    | .error f => .next (s.raise f)
    | .ok (b0, b1) => s.execDecoded (decodeBytes b0 b1)

/-- The handling of one event (R256, R258 to R263, R293). -/
def handle (e : Event) (s : State) : Answer :=
  match e with
  | .instrTick => instrTick s
  | .timerTick => .next (s.unlessHalted s.countDown)
  | .renderTick => .next s
  | .press k => .next (s.unlessHalted (s.pressKey k))
  | .release k => .next (s.unlessHalted (s.releaseKey k))
  | .load rom => s.load rom

/-- The events of a list handled in order, each from the state the one before left (R256). -/
def handleAll : List Event → State → Answer
  | [], s => .next s
  | e :: es, s =>
    match handle e s with
    | .next t => handleAll es t
    | .fault f => .fault f
    | .refused r => .refused r

/-- The output `Snapshot`: a `RenderTick` emits a copy of FB as it stands (R262); a halted core's snapshot is not
defined (R263, U13), and no other event emits one. -/
def snapshotOf (e : Event) (s : State) : Option Framebuffer :=
  match e with
  | .renderTick => if s.halted then none else some s.fb
  | .instrTick | .timerTick | .press _ | .release _ | .load _ => none

/-- The output BUZZ, the level the Buzzer samples (R230); a halted core's is not defined (R263, U13). -/
def State.toneOutput (s : State) : Option Bool := if s.halted then none else some s.buzz

/-- The event the next step handles: the first the environment offers, else an instruction tick
(notes/assumptions/1.md). -/
def State.nextEvent (s : State) : Event := s.events.headD .instrTick

/-- The event is consumed, exactly once (R39(d), R256). -/
def State.consumeEvent (s : State) : State := { s with events := s.events.tail }

/-- Places a word where the next step fetches its instruction, the high byte first (R68): at pc, or at 0x200 when
no instruction can be fetched at pc; the core is made to run and the next event to be an instruction tick
(notes/assumptions/13.md). -/
def State.placeInstr (s : State) (w : Word) : State :=
  let pc : Word := if s.pc.toNat + 1 ≤ 4095 then s.pc else 0x200
  { s with
    pc := pc
    mem := Memory.writeList s.font s.mem pc.toNat [highByte w, lowByte w]
    wait := .running
    fault := none
    events := if s.nextEvent = .instrTick then s.events else .instrTick :: s.events }

end Sys2Proof.Machine
end

