-- ==== Sys2Proof/Machine/Step.lean ====
section
/-! DEFINITION. One step: the next event of the environment's sequence, handled whole (spec/00_scope.md R9,
spec/60_exceptions.md R256). -/

namespace Sys2Proof.Machine

/-- One event is taken from the sequence and handled. -/
def step (s : State) : Host.Outcome State Fault Refusal := handle s.nextEvent s.consumeEvent

/-- s with the word w placed where the next step fetches its instruction. -/
def State.withFetchWord (s : State) (nbits w : Nat) : State := s.placeInstr (tableWord nbits w)

end Sys2Proof.Machine
end

