-- ==== Sys2Proof/WellFormed.lean ====
section
/-! DEFINITION. What the spec asks of an instruction beyond the widths of its fields. The operand types admit
exactly the values the encoding admits, so no range check is left over; the one check is the document's own
"well-formed" (spec/00_scope.md R11, spec/10_state.md R23, spec/70_reset_and_hazards.md R298(b)): VF is not the
destination x of an instruction that also writes VF as its flag. An instruction that breaks it still has its
encoding and still runs (R163); see notes/assumptions/16.md. -/

namespace Sys2Proof

/-- The register an instruction writes together with the flag VF: x of 8xy4, 8xy5, 8xy6, 8xy7, 8xyE (R163). -/
def Instr.flagPair : Instr → Option Reg
  | .addVxVy x _ | .sub x _ | .shr x _ | .subn x _ | .shl x _ => some x
  | .cls | .ret | .jp _ | .call _ | .seVxKk _ _ | .sneVxKk _ _ | .seVxVy _ _ | .ldVxKk _ _ | .addVxKk _ _
  | .ldVxVy _ _ | .or _ _ | .and _ _ | .xor _ _ | .sneVxVy _ _ | .ldINnn _ | .jpV0 _ | .rnd _ _ | .drw _ _ _
  | .skp _ | .sknp _ | .ldVxDt _ | .ldVxK _ | .ldDtVx _ | .ldStVx _ | .addIVx _ | .ldFVx _ | .ldBVx _
  | .ldMiVx _ | .ldVxMi _ => none

/-- The document's "well-formed": no VF clash (R23, R298(b)). -/
def Instr.wellFormed (i : Instr) : Bool := i.flagPair != some 0xF#4

end Sys2Proof
end

