-- ==== Sys2Proof/Safety.lean ====
section
/-! DEFINITION. The terms the statements are made in: the parts of the state and what "unchanged" means of them, who
may write which part (spec/10_state.md R20), who may raise which fault (spec/60_exceptions.md R252), the invariant of
every step, and a safe run. -/

namespace Sys2Proof.Machine

/-- The parts of the state: the elements of R20 and the model's own three fields. -/
inductive Part where
  | v | i | pc | sp | stack | dt | st | mem | fb | keys | wait | buzz | fault | font | draws | events
  deriving DecidableEq, Repr

/-- The part is the same in both states. Memory is compared through the read of one byte, at every address. -/
def Part.same (p : Part) (s t : State) : Prop :=
  match p with
  | .v => t.v = s.v
  | .i => t.i = s.i
  | .pc => t.pc = s.pc
  | .sp => t.sp = s.sp
  | .stack => t.stack = s.stack
  | .dt => t.dt = s.dt
  | .st => t.st = s.st
  | .mem => ∀ a : Nat, t.byteAt a = s.byteAt a
  | .fb => t.fb = s.fb
  | .keys => t.keys = s.keys
  | .wait => t.wait = s.wait
  | .buzz => t.buzz = s.buzz
  | .fault => t.fault = s.fault
  | .font => t.font = s.font
  | .draws => t.draws = s.draws
  | .events => t.events = s.events

/-- Every part but those listed is the same in both states. -/
def UnchangedExcept (ps : List Part) (s t : State) : Prop := ∀ p : Part, p ∉ ps → p.same s t

/-- The parts of the state an instruction may write, FAULT apart (R20, column "written by"; R26 for pc). `draws` is
the model's count of free bytes (R162, R163). -/
def mayWrite : Instr → List Part
  | .cls => [.fb, .pc]
  | .ret => [.pc, .sp]
  | .jp _ | .jpV0 _ => [.pc]
  | .call _ => [.pc, .sp, .stack]
  | .seVxKk _ _ | .sneVxKk _ _ | .seVxVy _ _ | .sneVxVy _ _ | .skp _ | .sknp _ => [.pc]
  | .ldVxKk _ _ | .addVxKk _ _ | .ldVxVy _ _ | .or _ _ | .and _ _ | .xor _ _ | .ldVxDt _ | .ldVxMi _ => [.v, .pc]
  | .addVxVy _ _ | .sub _ _ | .shr _ _ | .subn _ _ | .shl _ _ | .rnd _ _ => [.v, .pc, .draws]
  | .ldINnn _ | .addIVx _ | .ldFVx _ => [.i, .pc]
  | .drw _ _ _ => [.v, .fb, .pc]
  | .ldVxK _ => [.wait, .pc]
  | .ldDtVx _ => [.dt, .pc]
  | .ldStVx _ => [.st, .pc]
  | .ldBVx _ | .ldMiVx _ => [.mem, .pc]

/-- Instruction i may write register z: its destination, VF where it writes a flag (R22), V0 to Vx for Fx65 (R21,
R23, R185). Fx0A writes none: the press that ends the wait does (R222). -/
def mayWriteReg (i : Instr) (z : Reg) : Bool :=
  match i with
  | .ldVxKk x _ | .addVxKk x _ | .ldVxVy x _ | .or x _ | .and x _ | .xor x _ | .rnd x _ | .ldVxDt x => z == x
  | .addVxVy x _ | .sub x _ | .shr x _ | .subn x _ | .shl x _ => z == x || z == VF
  | .drw _ _ _ => z == VF
  | .ldVxMi x => z.toNat ≤ x.toNat
  | .cls | .ret | .jp _ | .call _ | .seVxKk _ _ | .sneVxKk _ _ | .seVxVy _ _ | .sneVxVy _ _ | .ldINnn _ | .jpV0 _
  | .skp _ | .sknp _ | .ldVxK _ | .ldDtVx _ | .ldStVx _ | .addIVx _ | .ldFVx _ | .ldBVx _ | .ldMiVx _ => false

/-- The one fault an instruction can raise when it executes, by its code; 0 for none (R252). -/
def mayRaise : Instr → Nat
  | .ret => 5
  | .call _ => 4
  | .drw _ _ _ | .ldBVx _ | .ldMiVx _ | .ldVxMi _ => 3
  | .skp _ | .sknp _ => 6
  | .ldFVx _ => 7
  | .cls | .jp _ | .seVxKk _ _ | .sneVxKk _ _ | .seVxVy _ _ | .ldVxKk _ _ | .addVxKk _ _ | .ldVxVy _ _ | .or _ _
  | .and _ _ | .xor _ _ | .addVxVy _ _ | .sub _ _ | .shr _ _ | .subn _ _ | .shl _ _ | .sneVxVy _ _ | .ldINnn _
  | .jpV0 _ | .rnd _ _ | .ldVxDt _ | .ldVxK _ | .ldDtVx _ | .ldStVx _ | .addIVx _ => 0

/-- The code of a fault (R251). -/
def FaultRecord.code : FaultRecord → Nat
  | .unsupportedInstruction _ _ _ _ => 1
  | .fetchOutOfRange _ => 2
  | .dataOutOfRange _ => 3
  | .stackOverflow => 4
  | .stackUnderflow => 5
  | .badKeyIndex _ => 6
  | .badFontDigit _ => 7

/-- The core executes at its next instruction tick: neither halted (R263) nor suspended (R264). -/
def State.active (s : State) : Prop := s.fault = none ∧ s.wait = .running

/-- What holds of every state a run reaches: SP in 0 to 15 (R28), the return addresses on the stack at most 4094
(R45), pc at most 0x10FE (R20, R27), and memory in its canonical form. -/
def State.inv (s : State) : Prop :=
  s.sp.toNat ≤ 15 ∧
  (∀ k : Fin 16, k.val < s.sp.toNat → s.stack[k].toNat ≤ 4094) ∧
  s.pc.toNat ≤ 0x10FE ∧
  Memory.wf s.font s.mem

/-- A safe run over a sequence of events: every event is handled with a next state, and FAULT is none throughout, in
the state at the start, after every event, and so at the end; a fault that a later load clears is no safe run (R250:
"FAULT = None throughout" is for a claim to prove, not to assume). -/
def SafeRun : List Event → State → Prop
  | [], s => s.fault = none
  | e :: es, s => s.fault = none ∧ ∃ t, handle e s = .next t ∧ SafeRun es t

/-- A run has ended: the core is active and the word at pc is a jump to pc itself (R305(c), one definition the spec
offers; decision D22). -/
def State.ended (s : State) : Prop :=
  s.active ∧ s.pc.toNat ≤ 4094 ∧
    ∃ nnn : Addr12, decodeBytes (s.byteAt s.pc.toNat) (s.byteAt (s.pc.toNat + 1)) = .instr (.jp nnn) ∧
      nnn.toNat = s.pc.toNat

/-- The sprite has a 1 bit for the cell (row, col) when it is drawn at origin (x0, y0) (R202): its row r and column
c are those with row = (y0 + r) mod 32 and col = (x0 + c) mod 64. -/
def spriteHits (x0 y0 : Nat) (sprite : List Byte) (row : Fin 32) (col : Fin 64) : Prop :=
  ∃ r c : Nat, c < 8 ∧ row.val = (y0 + r) % 32 ∧ col.val = (x0 + c) % 64 ∧
    ∃ _h : r < sprite.length, sprite[r].getLsbD (7 - c) = true

end Sys2Proof.Machine
end

