-- ==== Sys2Proof/Certificates/Slice0/Obligations.lean ====
section
/-! DEFINITION. The statements for the provers, each from the rules of spec/ that its docstring names. "The model's
choice" in a docstring marks what rests on a decision of the spec or on an entry of notes/assumptions. -/

open Sys2Proof Sys2Proof.Machine

/-! ### Encoding (30_encoding.md) -/

/-- Decoding the word of any instruction gives the instruction back, from the word and from its two bytes in the
order memory holds them (30_encoding.md sections 1 to 3, R68). -/
def Obligations.DecodeOfEncode : Prop :=
  ∀ i : Instr,
    decode (encode i) = .instr i ∧
    decodeBytes (highByte (encode i)) (lowByte (encode i)) = .instr i

/-- A word that decodes to an instruction is the word of that instruction: no bit of a supported word is dropped, and
no two words are the same instruction (30_encoding.md sections 1 to 3). -/
def Obligations.EncodeOfDecode : Prop :=
  ∀ (w : Word) (i : Instr), decode w = .instr i → encode i = w

/-- The decoder does what the opcode map says of every word: an instruction exactly when its row, and no other,
selects the word; else the word's four nibbles are rejected (R94, R95, R96, R97). -/
def Obligations.DecodeFollowsOpcodeMap : Prop :=
  ∀ w : Word,
    (∃ i, decode w = .instr i ∧
      ∀ (k : Nat) (r : OpRow), opcodeMap[k]? = some r → (r.selects w = true ↔ k = i.rowIndex)) ∨
    ((∀ r ∈ opcodeMap, r.selects w = false) ∧
      decode w = .unsupported (w.extractLsb' 12 4) (w.extractLsb' 8 4) (w.extractLsb' 4 4) (w.extractLsb' 0 4))

/-- The unsupported words, by major opcode (the table of R98). -/
def Obligations.UnsupportedWords : Prop :=
  ∀ w : Word,
    (∃ h1 h2 h3 h4, decode w = .unsupported h1 h2 h3 h4) ↔
      let h1 := w.toNat / 0x1000
      let h4 := w.toNat % 0x10
      let kk := w.toNat % 0x100
      (h1 = 0 ∧ w.toNat ≠ 0x00E0 ∧ w.toNat ≠ 0x00EE) ∨
      (h1 = 5 ∧ h4 ≠ 0) ∨
      (h1 = 8 ∧ h4 ∈ [0x8, 0x9, 0xA, 0xB, 0xC, 0xD, 0xF]) ∨
      (h1 = 9 ∧ h4 ≠ 0) ∨
      (h1 = 0xE ∧ kk ∉ [0x9E, 0xA1]) ∨
      (h1 = 0xF ∧ kk ∉ [0x07, 0x0A, 0x15, 0x18, 0x1E, 0x29, 0x33, 0x55, 0x65])

/-- Words the spec writes out, at least one of each family and three unsupported ones (95_test_vectors.md). -/
def Obligations.SampleWordsDecode : Prop :=
  decodeBytes 0x00 0xE0 = .instr .cls ∧
  decodeBytes 0x00 0xEE = .instr .ret ∧
  decodeBytes 0x1A 0xBC = .instr (.jp 0xABC) ∧
  decodeBytes 0x22 0x10 = .instr (.call 0x210) ∧
  decodeBytes 0x3A 0x42 = .instr (.seVxKk 0xA 0x42) ∧
  decodeBytes 0x51 0x20 = .instr (.seVxVy 1 2) ∧
  decodeBytes 0x6A 0x3C = .instr (.ldVxKk 0xA 0x3C) ∧
  decodeBytes 0x7A 0xFF = .instr (.addVxKk 0xA 0xFF) ∧
  decodeBytes 0x81 0x24 = .instr (.addVxVy 1 2) ∧
  decodeBytes 0x81 0x2E = .instr (.shl 1 2) ∧
  decodeBytes 0xA3 0x00 = .instr (.ldINnn 0x300) ∧
  decodeBytes 0xC3 0x0F = .instr (.rnd 3 0x0F) ∧
  decodeBytes 0xD1 0x23 = .instr (.drw 1 2 3) ∧
  decodeBytes 0xE5 0xA1 = .instr (.sknp 5) ∧
  decodeBytes 0xF5 0x0A = .instr (.ldVxK 5) ∧
  decodeBytes 0xFA 0x33 = .instr (.ldBVx 0xA) ∧
  decodeBytes 0x00 0x00 = .unsupported 0 0 0 0 ∧
  decodeBytes 0x81 0x28 = .unsupported 8 1 2 8 ∧
  decodeBytes 0xFF 0xFF = .unsupported 0xF 0xF 0xF 0xF

/-! ### The step (60_exceptions.md) -/

/-- When the core is active, the next event is an instruction tick and the two bytes at pc decode to i, the step is
`exec i` on the state with that event consumed; nothing else is added around `exec` (R258, R68, R69). -/
def Obligations.StepRunsDecodedInstruction : Prop :=
  ∀ (s : State) (i : Instr),
    s.active → s.nextEvent = .instrTick → s.pc.toNat ≤ 4094 →
    decodeBytes (s.byteAt s.pc.toNat) (s.byteAt (s.pc.toNat + 1)) = .instr i →
    step s = exec i s.consumeEvent

/-- A word placed where the next step fetches is the instruction the next step runs, from every state (log entry 13). -/
def Obligations.StepRunsPlacedWord : Prop :=
  ∀ (s : State) (nbits n : Nat) (i : Instr),
    decodeTableWord nbits n = some i →
    step (s.withFetchWord nbits n) = exec i (s.withFetchWord nbits n).consumeEvent

/-- The two checks before execution, in their order: a pc above 4094 faults with that pc and whatever the word would
have been; else an unsupported word faults with the four nibbles of its two bytes (R69, R97, R251, R253). -/
def Obligations.FetchAndDecodeFaults : Prop :=
  ∀ s : State,
    s.active → s.nextEvent = .instrTick →
    (4094 < s.pc.toNat → step s = .next (s.consumeEvent.raise (.fetchOutOfRange s.pc))) ∧
    (s.pc.toNat ≤ 4094 →
      let b0 := s.byteAt s.pc.toNat
      let b1 := s.byteAt (s.pc.toNat + 1)
      (∀ i, decodeBytes b0 b1 ≠ .instr i) →
      step s = .next (s.consumeEvent.raise (.unsupportedInstruction
        (b0.extractLsb' 4 4) (b0.extractLsb' 0 4) (b1.extractLsb' 4 4) (b1.extractLsb' 0 4))))

/-- From a state with SP in 0 to 15 every step answers a next state, but for the load of a ROM of more than 0xE00
bytes, which is refused (R9, R294; the outcomes are those of log entries 2 and 7). -/
def Obligations.StepOnlyRefusesLargeRom : Prop :=
  ∀ s : State, s.sp.toNat ≤ 15 →
    (∃ t, step s = .next t) ∨
    ∃ rom, s.nextEvent = .load rom ∧ 0xE00 < rom.length ∧ step s = .refused (.loadTooLarge rom.length)

/-- Every step keeps the invariant: SP in 0 to 15, return addresses at most 4094, pc at most 0x10FE, memory in its
canonical form (R20, R27, R28, R45). -/
def Obligations.StepKeepsInv : Prop :=
  ∀ s t : State, s.inv → step s = .next t → t.inv

/-- The invariant holds after reset. -/
def Obligations.ResetMeetsInv : Prop := State.reset.inv

/-- Every element after reset with an empty program. pc and memory are the document's; the other zeros are the spec's
decision D4 (log entry 10), STACK's are the model's choice (log entry 4), and the font bytes are the default of the
parameter FONT (log entry 5). -/
def Obligations.ResetState : Prop :=
  let r := State.reset
  r.pc = 0x200 ∧
  (∀ a : Nat, r.byteAt a = Config.defaultFontBytes.getD a 0) ∧
  (∀ x, r.reg x = 0) ∧ r.i = 0 ∧ r.sp = 0 ∧ (∀ k : Fin 16, r.stack[k] = 0) ∧ r.dt = 0 ∧ r.st = 0 ∧
  (∀ row col, r.fb.cell row col = false) ∧ (∀ k, r.keyDown k = false) ∧
  r.active ∧ r.buzz = false

/-- `Load(rom)`, from every state, halted or not: a ROM of at most 0xE00 bytes gives memory of zeros, FONT from 0 and
the ROM from 0x200, and every other element its reset value; a longer one is refused with its length. pc and memory
are the document's, the other reset values the spec's decision D4 (log entry 10); that STACK is zeros after the load is
the model's choice (log entry 4: R40 and U12 leave it unspecified), and so is that the model's own fields are kept (log
entry 12). -/
def Obligations.LoadRestartsCore : Prop :=
  ∀ (s : State) (rom : List Byte),
    (rom.length ≤ 0xE00 → ∃ t, handle (.load rom) s = .next t ∧
      (∀ a : Nat, t.byteAt a =
        if 0x200 ≤ a ∧ a < 0x200 + rom.length then rom.getD (a - 0x200) 0
        else if h : a < 80 then s.font[a] else 0) ∧
      UnchangedExcept [.mem, .font, .draws, .events] State.reset t ∧
      t.font = s.font ∧ t.draws = s.draws ∧ t.events = s.events) ∧
    (0xE00 < rom.length → handle (.load rom) s = .refused (.loadTooLarge rom.length))

/-- Faults are precise, and each has its cause: a step of an unhalted core, other than a load, that leaves FAULT set has
changed FAULT and nothing else; the event was an instruction tick, and the fault is of code 1 or 2, or the one
that the decoded instruction may raise (R251, R252, R253, R254; decision D3). -/
def Obligations.FaultsArePrecise : Prop :=
  ∀ s t : State,
    s.fault = none → (∀ rom, s.nextEvent ≠ .load rom) → step s = .next t → t.fault ≠ none →
    s.nextEvent = .instrTick ∧
    ∃ f, t = s.consumeEvent.raise f ∧
      (f.code = 1 ∨ f.code = 2 ∨
        ∃ i, decodeBytes (s.byteAt s.pc.toNat) (s.byteAt (s.pc.toNat + 1)) = .instr i ∧ f.code = mayRaise i)

/-- A halted core ignores every sequence of events without a load: no element changes (R263, R37; decision D2). -/
def Obligations.HaltedIgnoresEvents : Prop :=
  ∀ (es : List Event) (s : State),
    s.fault ≠ none → (∀ e ∈ es, ∀ rom, e ≠ .load rom) → handleAll es s = .next s

/-- A suspended core stays suspended through every sequence of events without a press or a load: only the timers, the
tone level and the pressed-key set can change (R226, R231, R264, R276, R35). -/
def Obligations.OnlyPressEndsWait : Prop :=
  ∀ (es : List Event) (s : State) (r : Reg),
    s.fault = none → s.wait = .awaitingKey r →
    (∀ e ∈ es, (∀ k, e ≠ .press k) ∧ ∀ rom, e ≠ .load rom) →
    ∃ t, handleAll es s = .next t ∧ UnchangedExcept [.dt, .st, .buzz, .keys] s t

/-! ### The other events (44_keys_timers.md) -/

/-- `Press(k)`: k enters KEYS; a waiting core gets the key's value in the waiting register and runs again; nothing
else changes (R227, R260; that the key enters KEYS also then is decision D16). -/
def Obligations.PressEvent : Prop :=
  ∀ (k : Key) (s : State), s.fault = none →
    ∃ t, handle (.press k) s = .next t ∧
      (∀ j, t.keyDown j = true ↔ j = k ∨ s.keyDown j = true) ∧
      (s.wait = .running → UnchangedExcept [.keys] s t) ∧
      (∀ r, s.wait = .awaitingKey r →
        (t.reg r).toNat = k.toNat ∧ (∀ z, z ≠ r → t.reg z = s.reg z) ∧ t.wait = .running ∧
        UnchangedExcept [.keys, .v, .wait] s t)

/-- `Release(k)`: k leaves KEYS and nothing else changes, running or suspended (R228, R261). -/
def Obligations.ReleaseEvent : Prop :=
  ∀ (k : Key) (s : State), s.fault = none →
    ∃ t, handle (.release k) s = .next t ∧
      (∀ j, t.keyDown j = true ↔ j ≠ k ∧ s.keyDown j = true) ∧
      UnchangedExcept [.keys] s t

/-- `TimerTick`: each timer counts down by one and stops at 0; BUZZ is on exactly when ST was positive at the start of
the tick; nothing else changes (R229, R259). That it is the same while suspended is the spec's decision D17 (R231; log
entry 17). -/
def Obligations.TimerTickEvent : Prop :=
  ∀ s : State, s.fault = none →
    ∃ t, handle .timerTick s = .next t ∧
      t.dt.toNat = s.dt.toNat - 1 ∧ t.st.toNat = s.st.toNat - 1 ∧
      (t.buzz = true ↔ 0 < s.st.toNat) ∧
      UnchangedExcept [.dt, .st, .buzz] s t

/-- `RenderTick`: emits FB as it stands while not halted, and its number and placement affect no later state (R262;
that a halted core emits none is the model's form of "not defined", log entry 9). -/
def Obligations.RenderTickOnlyObserves : Prop :=
  (∀ s : State, snapshotOf .renderTick s = if s.fault = none then some s.fb else none) ∧
  ∀ (es es' : List Event) (s : State), handleAll (es ++ .renderTick :: es') s = handleAll (es ++ es') s

/-! ### All instructions -/

/-- Who writes what: an instruction that answers a next state has changed only the parts of its row in `mayWrite`, and
FAULT (R20, column "written by"; R26). -/
def Obligations.InstructionsWriteOnlyTheirParts : Prop :=
  ∀ (i : Instr) (s t : State), exec i s = .next t → UnchangedExcept (.fault :: mayWrite i) s t

/-- Who writes which register: every register but the destination, VF where the instruction writes a flag, and V0 to
Vx of Fx65 keeps its value; in particular no other instruction writes VF as a side effect (R21, R22, R23). -/
def Obligations.InstructionsWriteOnlyTheirRegisters : Prop :=
  ∀ (i : Instr) (s t : State) (z : Reg), exec i s = .next t → mayWriteReg i z = false → t.reg z = s.reg z

/-- Which instruction can raise which fault when it executes: the one of its row in `mayRaise`, or none (R252). -/
def Obligations.InstructionsRaiseOnlyTheirFault : Prop :=
  ∀ (i : Instr) (s t : State) (f : FaultRecord),
    s.fault = none → exec i s = .next t → t.fault = some f → f.code = mayRaise i

/-! ### Control transfer (40_control_flow.md) -/

/-- 00EE: pc <- the entry last pushed + 2; SP - 1; nothing else (40_control_flow.md section 2, 00EE). -/
def Obligations.RetReturnsAfterCall : Prop :=
  decode 0x00EE = .instr .ret ∧
  ∀ s : State, 0 < s.sp.toNat → s.sp.toNat ≤ 15 →
    ∃ t, exec .ret s = .next t ∧
      (∀ k : Fin 16, k.val + 1 = s.sp.toNat → t.pc = s.stack[k] + 2) ∧
      t.sp.toNat = s.sp.toNat - 1 ∧
      UnchangedExcept [.pc, .sp] s t

/-- 1nnn: pc <- nnn, nothing else (R122). -/
def Obligations.JpJumps : Prop :=
  ∀ (nnn : Addr12) (s : State),
    decode (formatA 0x1 nnn) = .instr (.jp nnn) ∧
    ∃ t, exec (.jp nnn) s = .next t ∧ t.pc.toNat = nnn.toNat ∧ UnchangedExcept [.pc] s t

/-- An active core at a jump to itself stays there through every sequence of events without a load: only the timers,
the tone level and the pressed-key set can change (R122, R305; that this is the end of a run is decision D22). -/
def Obligations.SelfJumpEndsRun : Prop :=
  ∀ (es : List Event) (s : State),
    s.ended → (∀ e ∈ es, ∀ rom, e ≠ .load rom) →
    ∃ t, handleAll es s = .next t ∧ t.ended ∧ UnchangedExcept [.dt, .st, .buzz, .keys] s t

/-- 2nnn with SP < 15: STACK[SP] <- the address of the call itself; SP + 1; pc <- nnn; nothing else
(40_control_flow.md section 2, 2nnn). -/
def Obligations.CallPushesItsAddress : Prop :=
  ∀ (nnn : Addr12) (s : State), s.sp.toNat < 15 →
    decode (formatA 0x2 nnn) = .instr (.call nnn) ∧
    ∃ t, exec (.call nnn) s = .next t ∧
      (∀ k : Fin 16, t.stack[k] = if k.val = s.sp.toNat then s.pc else s.stack[k]) ∧
      t.sp.toNat = s.sp.toNat + 1 ∧ t.pc.toNat = nnn.toNat ∧
      UnchangedExcept [.pc, .sp, .stack] s t

/-- A full and an empty stack: a call at SP = 15 and a return at SP = 0 fault and change nothing else (decisions D6
and D7). SP > 15 is no state of the core, and the model stops there (log entry 7). -/
def Obligations.StackFaults : Prop :=
  ∀ (nnn : Addr12) (s : State),
    (s.sp.toNat = 15 → exec (.call nnn) s = .next (s.raise .stackOverflow)) ∧
    (s.sp.toNat = 0 → exec .ret s = .next (s.raise .stackUnderflow)) ∧
    (15 < s.sp.toNat → exec (.call nnn) s = .fault (.stackPointerOutOfRange s.sp) ∧
      exec .ret s = .fault (.stackPointerOutOfRange s.sp))

/-- A return undoes the call it matches, whatever the subroutine did to everything but SP and STACK: it lands on the
instruction after the call, with the caller's SP (40_control_flow.md section 2). -/
def Obligations.ReturnUndoesCall : Prop :=
  ∀ (nnn : Addr12) (s : State), s.sp.toNat < 15 →
    ∃ t, exec (.call nnn) s = .next t ∧
      ∀ u : State, u.sp = t.sp → u.stack = t.stack →
        ∃ w, exec .ret u = .next w ∧ w.pc = s.pc + 2 ∧ w.sp = s.sp ∧ UnchangedExcept [.pc, .sp] u w

/-- 3xkk and 4xkk: +4 when V[x] equals, or differs from, kk, else +2; nothing else (R124, R125). -/
def Obligations.SkipsOnImmediate : Prop :=
  ∀ (x : Reg) (kk : Byte) (s : State),
    decode (formatI 0x3 x kk) = .instr (.seVxKk x kk) ∧
    decode (formatI 0x4 x kk) = .instr (.sneVxKk x kk) ∧
    (∃ t, exec (.seVxKk x kk) s = .next t ∧
      t.pc = s.pc + (if (s.reg x).toNat = kk.toNat then 4 else 2) ∧ UnchangedExcept [.pc] s t) ∧
    (∃ t, exec (.sneVxKk x kk) s = .next t ∧
      t.pc = s.pc + (if (s.reg x).toNat = kk.toNat then 2 else 4) ∧ UnchangedExcept [.pc] s t)

/-- 5xy0 and 9xy0: +4 when V[x] and V[y] are equal, or differ, else +2; nothing else; 5xyN and 9xyN with N not 0 are
unsupported (R126, R127). -/
def Obligations.SkipsOnRegister : Prop :=
  ∀ (x y : Reg) (s : State),
    decode (formatR 0x5 x y 0) = .instr (.seVxVy x y) ∧
    decode (formatR 0x9 x y 0) = .instr (.sneVxVy x y) ∧
    (∀ m : Nibble, m ≠ 0 → decode (formatR 0x5 x y m) = .unsupported 0x5 x y m ∧
      decode (formatR 0x9 x y m) = .unsupported 0x9 x y m) ∧
    (∃ t, exec (.seVxVy x y) s = .next t ∧
      t.pc = s.pc + (if (s.reg x).toNat = (s.reg y).toNat then 4 else 2) ∧ UnchangedExcept [.pc] s t) ∧
    (∃ t, exec (.sneVxVy x y) s = .next t ∧
      t.pc = s.pc + (if (s.reg x).toNat = (s.reg y).toNat then 2 else 4) ∧ UnchangedExcept [.pc] s t)

/-- Bnnn: pc <- nnn + V[0], not reduced to 12 bits and never wrapping; nothing else; a sum of 4095 or more makes the
next step fault (R128). -/
def Obligations.JpV0JumpsUnreduced : Prop :=
  ∀ (nnn : Addr12) (s : State),
    decode (formatA 0xB nnn) = .instr (.jpV0 nnn) ∧
    ∃ t, exec (.jpV0 nnn) s = .next t ∧ t.pc.toNat = nnn.toNat + (s.reg 0).toNat ∧ t.pc.toNat ≤ 0x10FE ∧
      UnchangedExcept [.pc] s t ∧
      (4095 ≤ nnn.toNat + (s.reg 0).toNat → s.active → s.nextEvent = .instrTick →
        step t = .next (t.consumeEvent.raise (.fetchOutOfRange t.pc)))

/-! ### Register load, arithmetic, logic, shift, random (41_load_alu.md) -/

/-- 6xkk: V[x] <- kk; every other register, VF among them, and everything else keep their values (R151). -/
def Obligations.LdVxKkLoads : Prop :=
  ∀ (x : Reg) (kk : Byte) (s : State),
    decode (formatI 0x6 x kk) = .instr (.ldVxKk x kk) ∧
    ∃ t, exec (.ldVxKk x kk) s = .next t ∧ t.reg x = kk ∧ (∀ z, z ≠ x → t.reg z = s.reg z) ∧
      t.pc = s.pc + 2 ∧ UnchangedExcept [.v, .pc] s t

/-- 7xkk: V[x] <- (V[x] + kk) mod 256; VF is no flag here (R152). -/
def Obligations.AddVxKkAddsNoFlag : Prop :=
  ∀ (x : Reg) (kk : Byte) (s : State),
    decode (formatI 0x7 x kk) = .instr (.addVxKk x kk) ∧
    ∃ t, exec (.addVxKk x kk) s = .next t ∧ (t.reg x).toNat = ((s.reg x).toNat + kk.toNat) % 256 ∧
      (∀ z, z ≠ x → t.reg z = s.reg z) ∧ t.pc = s.pc + 2 ∧ UnchangedExcept [.v, .pc] s t

/-- 8xy0: V[x] <- V[y] (R153). -/
def Obligations.LdVxVyCopies : Prop :=
  ∀ (x y : Reg) (s : State),
    decode (formatR 0x8 x y 0x0) = .instr (.ldVxVy x y) ∧
    ∃ t, exec (.ldVxVy x y) s = .next t ∧ t.reg x = s.reg y ∧ (∀ z, z ≠ x → t.reg z = s.reg z) ∧
      t.pc = s.pc + 2 ∧ UnchangedExcept [.v, .pc] s t

/-- 8xy1, 8xy2, 8xy3: V[x] <- V[x] OR, AND, XOR V[y], bit by bit; VF is not written unless it is x (41_load_alu.md
section 2; that VF is not written is decision D19). -/
def Obligations.LogicKeepsVF : Prop :=
  ∀ (x y : Reg) (s : State),
    decode (formatR 0x8 x y 0x1) = .instr (.or x y) ∧
    decode (formatR 0x8 x y 0x2) = .instr (.and x y) ∧
    decode (formatR 0x8 x y 0x3) = .instr (.xor x y) ∧
    (∃ t, exec (.or x y) s = .next t ∧
      (∀ b : Nat, (t.reg x).getLsbD b = ((s.reg x).getLsbD b || (s.reg y).getLsbD b)) ∧
      (∀ z, z ≠ x → t.reg z = s.reg z) ∧ t.pc = s.pc + 2 ∧ UnchangedExcept [.v, .pc] s t) ∧
    (∃ t, exec (.and x y) s = .next t ∧
      (∀ b : Nat, (t.reg x).getLsbD b = ((s.reg x).getLsbD b && (s.reg y).getLsbD b)) ∧
      (∀ z, z ≠ x → t.reg z = s.reg z) ∧ t.pc = s.pc + 2 ∧ UnchangedExcept [.v, .pc] s t) ∧
    (∃ t, exec (.xor x y) s = .next t ∧
      (∀ b : Nat, (t.reg x).getLsbD b = ((s.reg x).getLsbD b ^^ (s.reg y).getLsbD b)) ∧
      (∀ z, z ≠ x → t.reg z = s.reg z) ∧ t.pc = s.pc + 2 ∧ UnchangedExcept [.v, .pc] s t)

/-- 8xy4 with x not F: V[x] <- the sum mod 256, VF <- 1 exactly when the sum is 256 or more; both from the values
before, also with y = F (41_load_alu.md sections 1 and 2). -/
def Obligations.AddVxVySetsCarry : Prop :=
  ∀ (x y : Reg) (s : State), x ≠ VF →
    decode (formatR 0x8 x y 0x4) = .instr (.addVxVy x y) ∧
    ∃ t, exec (.addVxVy x y) s = .next t ∧
      (t.reg x).toNat = ((s.reg x).toNat + (s.reg y).toNat) % 256 ∧
      (t.reg VF).toNat = (if 256 ≤ (s.reg x).toNat + (s.reg y).toNat then 1 else 0) ∧
      (∀ z, z ≠ x → z ≠ VF → t.reg z = s.reg z) ∧ t.pc = s.pc + 2 ∧ UnchangedExcept [.v, .pc] s t

/-- 8xy5 and 8xy7 with x not F: V[x] <- the difference mod 256, VF <- 1 exactly when there is no borrow, equal operands
included (41_load_alu.md sections 1 and 2). -/
def Obligations.SubtractSetsNoBorrow : Prop :=
  ∀ (x y : Reg) (s : State), x ≠ VF →
    let a := (s.reg x).toNat
    let b := (s.reg y).toNat
    decode (formatR 0x8 x y 0x5) = .instr (.sub x y) ∧
    decode (formatR 0x8 x y 0x7) = .instr (.subn x y) ∧
    (∃ t, exec (.sub x y) s = .next t ∧
      (t.reg x).toNat = (if b ≤ a then a - b else a + 256 - b) ∧
      (t.reg VF).toNat = (if b ≤ a then 1 else 0) ∧
      (∀ z, z ≠ x → z ≠ VF → t.reg z = s.reg z) ∧ t.pc = s.pc + 2 ∧ UnchangedExcept [.v, .pc] s t) ∧
    (∃ t, exec (.subn x y) s = .next t ∧
      (t.reg x).toNat = (if a ≤ b then b - a else b + 256 - a) ∧
      (t.reg VF).toNat = (if a ≤ b then 1 else 0) ∧
      (∀ z, z ≠ x → z ≠ VF → t.reg z = s.reg z) ∧ t.pc = s.pc + 2 ∧ UnchangedExcept [.v, .pc] s t)

/-- 8xy6 and 8xyE with x not F: V[x] <- V[x] div 2 or 2 V[x] mod 256, VF <- the bit shifted out, both from V[x] before
the shift, whatever the field y is (41_load_alu.md sections 1 and 2; that V[y] plays no part is decision D19). -/
def Obligations.ShiftsMoveVxByOne : Prop :=
  ∀ (x y : Reg) (s : State), x ≠ VF →
    let a := (s.reg x).toNat
    decode (formatR 0x8 x y 0x6) = .instr (.shr x y) ∧
    decode (formatR 0x8 x y 0xE) = .instr (.shl x y) ∧
    (∃ t, exec (.shr x y) s = .next t ∧ (t.reg x).toNat = a / 2 ∧ (t.reg VF).toNat = a % 2 ∧
      (∀ z, z ≠ x → z ≠ VF → t.reg z = s.reg z) ∧ t.pc = s.pc + 2 ∧ UnchangedExcept [.v, .pc] s t) ∧
    (∃ t, exec (.shl x y) s = .next t ∧ (t.reg x).toNat = 2 * a % 256 ∧ (t.reg VF).toNat = a / 128 ∧
      (∀ z, z ≠ x → z ≠ VF → t.reg z = s.reg z) ∧ t.pc = s.pc + 2 ∧ UnchangedExcept [.v, .pc] s t)

/-- 8Fy4, 8Fy5, 8Fy6, 8Fy7, 8FyE: VF is left with the next free byte, of which nothing is known, one draw is counted,
pc advances, and nothing else changes (the spec's decision D10; log entry 6). -/
def Obligations.FlagClashLeavesFreeByte : Prop :=
  ∀ (y : Reg) (s : State) (i : Instr),
    i ∈ [Instr.addVxVy VF y, .sub VF y, .shr VF y, .subn VF y, .shl VF y] →
    ∃ t, exec i s = .next t ∧ t.reg VF = Config.draw8 s.draws ∧ (∀ z, z ≠ VF → t.reg z = s.reg z) ∧
      t.draws = s.draws + 1 ∧ t.pc = s.pc + 2 ∧ UnchangedExcept [.v, .pc, .draws] s t

/-- Cxkk: V[x] <- a free byte AND kk, so no bit is 1 where kk has a 0; one draw is counted (the byte is free by
decision D14; log entry 6). -/
def Obligations.RndStaysUnderMask : Prop :=
  ∀ (x : Reg) (kk : Byte) (s : State),
    decode (formatI 0xC x kk) = .instr (.rnd x kk) ∧
    ∃ t, exec (.rnd x kk) s = .next t ∧
      (∀ b : Nat, (t.reg x).getLsbD b = ((Config.draw8 s.draws).getLsbD b && kk.getLsbD b)) ∧
      (kk = 0 → t.reg x = 0) ∧
      (∀ z, z ≠ x → t.reg z = s.reg z) ∧ t.draws = s.draws + 1 ∧ t.pc = s.pc + 2 ∧
      UnchangedExcept [.v, .pc, .draws] s t

/-! ### Index register and memory transfer (42_index_memory.md) -/

/-- Annn: I <- nnn (R180). -/
def Obligations.LdINnnLoadsIndex : Prop :=
  ∀ (nnn : Addr12) (s : State),
    decode (formatA 0xA nnn) = .instr (.ldINnn nnn) ∧
    ∃ t, exec (.ldINnn nnn) s = .next t ∧ t.i.toNat = nnn.toNat ∧ t.i.toNat ≤ 0xFFF ∧
      t.pc = s.pc + 2 ∧ UnchangedExcept [.i, .pc] s t

/-- Fx1E: I <- (I + V[x]) mod 65536; no flag (42_index_memory.md section 2; the wrap is decision D9). -/
def Obligations.AddIVxSetsNoFlag : Prop :=
  ∀ (x : Reg) (s : State),
    decode (formatX 0xF x 0x1E) = .instr (.addIVx x) ∧
    ∃ t, exec (.addIVx x) s = .next t ∧ t.i.toNat = (s.i.toNat + (s.reg x).toNat) % 65536 ∧
      t.pc = s.pc + 2 ∧ UnchangedExcept [.i, .pc] s t

/-- Fx29: I <- 5 V[x] for a digit 0 to 15 (42_index_memory.md section 2); a larger value faults and changes nothing
else (decision D12). -/
def Obligations.LdFVxPointsAtGlyph : Prop :=
  ∀ (x : Reg) (s : State),
    decode (formatX 0xF x 0x29) = .instr (.ldFVx x) ∧
    ((s.reg x).toNat ≤ 15 → ∃ t, exec (.ldFVx x) s = .next t ∧ t.i.toNat = (s.reg x).toNat * 5 ∧
      t.pc = s.pc + 2 ∧ UnchangedExcept [.i, .pc] s t) ∧
    (15 < (s.reg x).toNat → exec (.ldFVx x) s = .next (s.raise (.badFontDigit (s.reg x))))

/-- Fx33 with I + 3 inside the space: the decimal digits of V[x] at I, I+1, I+2; every other byte, I and every register
keep their values (42_index_memory.md section 2). -/
def Obligations.LdBVxStoresDigits : Prop :=
  ∀ (x : Reg) (s : State), s.i.toNat + 3 ≤ 4096 →
    decode (formatX 0xF x 0x33) = .instr (.ldBVx x) ∧
    ∃ t, exec (.ldBVx x) s = .next t ∧
      (∃ h d o : Nat, h < 10 ∧ d < 10 ∧ o < 10 ∧ 100 * h + 10 * d + o = (s.reg x).toNat ∧
        (t.byteAt s.dataBase).toNat = h ∧ (t.byteAt (s.dataBase + 1)).toNat = d ∧
        (t.byteAt (s.dataBase + 2)).toNat = o) ∧
      (∀ a : Nat, a < s.dataBase ∨ s.dataBase + 3 ≤ a → t.byteAt a = s.byteAt a) ∧
      t.pc = s.pc + 2 ∧ UnchangedExcept [.mem, .pc] s t

/-- Fx55 with I + x + 1 inside the space: MEM[I + k] <- V[k] for k = 0 to x; every other byte, I and every register keep
their values (42_index_memory.md section 2; I by decision D18). -/
def Obligations.LdMiVxStoresBlock : Prop :=
  ∀ (x : Reg) (s : State), s.i.toNat + x.toNat + 1 ≤ 4096 →
    decode (formatX 0xF x 0x55) = .instr (.ldMiVx x) ∧
    ∃ t, exec (.ldMiVx x) s = .next t ∧
      (∀ k : Reg, k.toNat ≤ x.toNat → t.byteAt (s.dataBase + k.toNat) = s.reg k) ∧
      (∀ a : Nat, a < s.dataBase ∨ s.dataBase + x.toNat + 1 ≤ a → t.byteAt a = s.byteAt a) ∧
      t.pc = s.pc + 2 ∧ UnchangedExcept [.mem, .pc] s t

/-- Fx65 with I + x + 1 inside the space: V[k] <- MEM[I + k] for k = 0 to x; the registers above x, I and memory keep
their values (42_index_memory.md section 2; I by decision D18). -/
def Obligations.LdVxMiLoadsBlock : Prop :=
  ∀ (x : Reg) (s : State), s.i.toNat + x.toNat + 1 ≤ 4096 →
    decode (formatX 0xF x 0x65) = .instr (.ldVxMi x) ∧
    ∃ t, exec (.ldVxMi x) s = .next t ∧
      (∀ k : Reg, t.reg k = if k.toNat ≤ x.toNat then s.byteAt (s.dataBase + k.toNat) else s.reg k) ∧
      t.pc = s.pc + 2 ∧ UnchangedExcept [.v, .pc] s t

/-- A data access whose range passes 4095 faults with the first address outside and changes nothing else: Dxyn, also
with n = 0, Fx33, Fx55, Fx65 (decision D8). -/
def Obligations.DataOutOfRangeFaults : Prop :=
  ∀ (x y : Reg) (n : Nibble) (s : State),
    let out : Answer := .next (s.raise (.dataOutOfRange (max s.i.toNat 4096)))
    (4096 < s.i.toNat + n.toNat → exec (.drw x y n) s = out) ∧
    (4096 < s.i.toNat + 3 → exec (.ldBVx x) s = out) ∧
    (4096 < s.i.toNat + x.toNat + 1 → exec (.ldMiVx x) s = out ∧ exec (.ldVxMi x) s = out)

/-- Registers stored with Fx55 come back with Fx65 whatever stands in V then (42_index_memory.md section 2, R64 of
20_memory.md). It rests on Fx55 leaving I as it is, which is the spec's decision D18 (R186; log entry 17). -/
def Obligations.StoreThenLoadRestoresRegisters : Prop :=
  ∀ (x : Reg) (s : State) (v' : Vector Byte 16), s.i.toNat + x.toNat + 1 ≤ 4096 →
    ∃ t, exec (.ldMiVx x) s = .next t ∧
      ∃ u, exec (.ldVxMi x) { t with v := v' } = .next u ∧
        ∀ k : Reg, u.reg k = if k.toNat ≤ x.toNat then s.reg k else v'[k.toNat]'k.isLt

/-- A store is seen by the next fetch, the byte from the lower register as the high byte: after Fx55, a fetch at I + k
of an active core runs the instruction that V[k] and V[k+1] spell (R70, R76). -/
def Obligations.StoreIsSeenByNextFetch : Prop :=
  ∀ (x k : Reg) (s t : State) (i : Instr),
    k.toNat < x.toNat → exec (.ldMiVx x) s = .next t → t.active → t.nextEvent = .instrTick →
    t.pc.toNat = s.i.toNat + k.toNat → decodeBytes (s.reg k) (s.reg (k + 1)) = .instr i →
    step t = exec i t.consumeEvent

/-- Memory round trip: bytes written are read back at their addresses, in order, and no other byte changes (R64, R74;
20_memory.md section 2). -/
def Obligations.MemoryRoundTrip : Prop :=
  ∀ (s t : State) (a : Nat) (bytes : List Byte), s.memWrite a bytes = .ok t →
    t.memRead a bytes.length = .ok bytes ∧
    (∀ a' : Nat, a' < a ∨ a + bytes.length ≤ a' → t.byteAt a' = s.byteAt a') ∧
    UnchangedExcept [.mem] s t

/-! ### Display (43_display.md) -/

/-- 00E0: every cell dark, whatever it was; VF is not written (R201). -/
def Obligations.ClsClearsEveryCell : Prop :=
  decode 0x00E0 = .instr .cls ∧
  ∀ s : State, ∃ t, exec .cls s = .next t ∧ (∀ row col, t.fb.cell row col = false) ∧
    t.pc = s.pc + 2 ∧ UnchangedExcept [.fb, .pc] s t

/-- The sprite engine, for a sprite of at most 15 bytes: each cell becomes old XOR the sprite's bit for it, wrapped at
both edges, and the collision bit is set exactly when a 1 bit meets a lit cell (R202). -/
def Obligations.SpriteXorsAndCollides : Prop :=
  ∀ (fb : Framebuffer) (x0 y0 : Nat) (sprite : List Byte), sprite.length ≤ 15 →
    let d := drawSprite fb x0 y0 sprite
    (∀ row col, d.fb.cell row col = true ↔ ¬ (fb.cell row col = true ↔ spriteHits x0 y0 sprite row col)) ∧
    (d.collision = true ↔ ∃ row col, spriteHits x0 y0 sprite row col ∧ fb.cell row col = true)

/-- Drawing the identical sprite at the identical origin twice restores the framebuffer, and the second draw collides
exactly when some 1 bit of the sprite lay on a cell that was dark before the first (43_display.md section 2, R204). -/
def Obligations.DrawingTwiceRestores : Prop :=
  ∀ (fb : Framebuffer) (x0 y0 : Nat) (sprite : List Byte), sprite.length ≤ 15 →
    let first := drawSprite fb x0 y0 sprite
    let second := drawSprite first.fb x0 y0 sprite
    second.fb = fb ∧
    (second.collision = true ↔ ∃ row col, spriteHits x0 y0 sprite row col ∧ fb.cell row col = false)

/-- Dxyn with I + n inside the space: the n bytes at I are drawn at (V[x], V[y]), both read before VF is written, also
with x or y = F; VF <- 1 for a collision, else 0; every other register, I and memory keep their values
(43_display.md section 2; 1 and 0 are decision D20). -/
def Obligations.DrwDrawsSpriteAtI : Prop :=
  ∀ (x y : Reg) (n : Nibble) (s : State), s.i.toNat + n.toNat ≤ 4096 →
    decode (formatR 0xD x y n) = .instr (.drw x y n) ∧
    ∃ t sprite, exec (.drw x y n) s = .next t ∧
      sprite.length = n.toNat ∧
      (∀ k (h : k < sprite.length), sprite[k] = s.byteAt (s.dataBase + k)) ∧
      (∀ row col, t.fb.cell row col = true ↔
        ¬ (s.fb.cell row col = true ↔ spriteHits (s.reg x).toNat (s.reg y).toNat sprite row col)) ∧
      ((t.reg VF).toNat = 1 ∧
          (∃ row col, spriteHits (s.reg x).toNat (s.reg y).toNat sprite row col ∧ s.fb.cell row col = true) ∨
        (t.reg VF).toNat = 0 ∧
          ¬ ∃ row col, spriteHits (s.reg x).toNat (s.reg y).toNat sprite row col ∧ s.fb.cell row col = true) ∧
      (∀ z, z ≠ VF → t.reg z = s.reg z) ∧ t.pc = s.pc + 2 ∧ UnchangedExcept [.v, .fb, .pc] s t

/-! ### Keys and timers (44_keys_timers.md) -/

/-- Ex9E and ExA1 with V[x] a key: +4 when the key is down, or up, else +2; nothing else (44_keys_timers.md
section 1). A value above 15 faults and changes nothing else (decision D11). -/
def Obligations.SkipsOnKey : Prop :=
  ∀ (x : Reg) (s : State),
    decode (formatX 0xE x 0x9E) = .instr (.skp x) ∧
    decode (formatX 0xE x 0xA1) = .instr (.sknp x) ∧
    (∀ k : Key, (s.reg x).toNat = k.toNat →
      (∃ t, exec (.skp x) s = .next t ∧
        t.pc = s.pc + (if s.keyDown k = true then 4 else 2) ∧ UnchangedExcept [.pc] s t) ∧
      (∃ t, exec (.sknp x) s = .next t ∧
        t.pc = s.pc + (if s.keyDown k = true then 2 else 4) ∧ UnchangedExcept [.pc] s t)) ∧
    (15 < (s.reg x).toNat →
      exec (.skp x) s = .next (s.raise (.badKeyIndex (s.reg x))) ∧
      exec (.sknp x) s = .next (s.raise (.badKeyIndex (s.reg x))))

/-- Fx0A: pc + 2 and WAIT <- AwaitingKey(x), nothing else: V[x] is not written and KEYS is not consulted; and from then
on instruction ticks change nothing (R222, R258). -/
def Obligations.LdVxKSuspends : Prop :=
  ∀ (x : Reg) (s : State),
    decode (formatX 0xF x 0x0A) = .instr (.ldVxK x) ∧
    ∃ t, exec (.ldVxK x) s = .next t ∧ t.wait = .awaitingKey x ∧ t.pc = s.pc + 2 ∧
      UnchangedExcept [.wait, .pc] s t ∧ handle .instrTick t = .next t

/-- Fx07: V[x] <- DT, which is not changed (R223). -/
def Obligations.LdVxDtReadsTimer : Prop :=
  ∀ (x : Reg) (s : State),
    decode (formatX 0xF x 0x07) = .instr (.ldVxDt x) ∧
    ∃ t, exec (.ldVxDt x) s = .next t ∧ t.reg x = s.dt ∧ (∀ z, z ≠ x → t.reg z = s.reg z) ∧
      t.pc = s.pc + 2 ∧ UnchangedExcept [.v, .pc] s t

/-- Fx15: DT <- V[x], and the new value is decremented by the next timer tick (R224; that the tick counts also in a
suspended state is the spec's decision D17, log entry 17). -/
def Obligations.LdDtVxSetsDelayTimer : Prop :=
  ∀ (x : Reg) (s : State),
    decode (formatX 0xF x 0x15) = .instr (.ldDtVx x) ∧
    ∃ t, exec (.ldDtVx x) s = .next t ∧ t.dt = s.reg x ∧ t.pc = s.pc + 2 ∧ UnchangedExcept [.dt, .pc] s t ∧
      (s.fault = none → ∃ u, handle .timerTick t = .next u ∧ u.dt.toNat = (s.reg x).toNat - 1)

/-- Fx18: ST <- V[x], BUZZ not touched; the tone follows at the next tick, on exactly when the value is not 0
(R225, R229; that the tick counts also in a suspended state is the spec's decision D17, log entry 17). -/
def Obligations.LdStVxSetsSoundTimer : Prop :=
  ∀ (x : Reg) (s : State),
    decode (formatX 0xF x 0x18) = .instr (.ldStVx x) ∧
    ∃ t, exec (.ldStVx x) s = .next t ∧ t.st = s.reg x ∧ t.pc = s.pc + 2 ∧ UnchangedExcept [.st, .pc] s t ∧
      (s.fault = none → ∃ u, handle .timerTick t = .next u ∧ (u.buzz = true ↔ s.reg x ≠ 0))
end

