-- ==== Sys2Proof/Laws/Decode.lean ====
section
/-! SUPPORT. The fields of a word built in each format (R91, R92), and the bytes of a word (R68). -/

namespace Sys2Proof

variable (op x y m : Nibble) (kk : Byte) (nnn : Addr12) (w : Word)

theorem toNat_append4 {n : Nat} (a : BitVec n) (b : Nibble) : (a ++ b).toNat = a.toNat * 16 + b.toNat := by
  have := b.isLt
  rw [BitVec.toNat_append, Nat.shiftLeft_eq, ← Nat.mul_comm (2 ^ 4), ← Nat.two_pow_add_eq_or_of_lt this]

theorem toNat_append8 {n : Nat} (a : BitVec n) (b : Byte) : (a ++ b).toNat = a.toNat * 256 + b.toNat := by
  have := b.isLt
  rw [BitVec.toNat_append, Nat.shiftLeft_eq, ← Nat.mul_comm (2 ^ 8), ← Nat.two_pow_add_eq_or_of_lt this]

theorem toNat_append12 {n : Nat} (a : BitVec n) (b : Addr12) : (a ++ b).toNat = a.toNat * 4096 + b.toNat := by
  have := b.isLt
  rw [BitVec.toNat_append, Nat.shiftLeft_eq, ← Nat.mul_comm (2 ^ 12), ← Nat.two_pow_add_eq_or_of_lt this]

theorem formatA_toNat : (formatA op nnn).toNat = op.toNat * 4096 + nnn.toNat := toNat_append12 op nnn

theorem formatI_toNat : (formatI op x kk).toNat = op.toNat * 4096 + x.toNat * 256 + kk.toNat := by
  rw [formatI, toNat_append8, toNat_append4]
  omega

theorem formatR_toNat : (formatR op x y m).toNat = op.toNat * 4096 + x.toNat * 256 + y.toNat * 16 + m.toNat := by
  have := y.isLt
  have := m.isLt
  rw [formatR, toNat_append8, toNat_append4, toNat_append4]
  omega

theorem formatX_eq : formatX op x kk = formatI op x kk := rfl

theorem fieldH1_toNat : (fieldH1 w).toNat = w.toNat / 4096 := by
  have := w.isLt
  simp only [fieldH1, BitVec.extractLsb'_toNat, Nat.shiftRight_eq_div_pow]
  omega

theorem fieldX_toNat : (fieldX w).toNat = w.toNat / 256 % 16 := by
  simp only [fieldX, BitVec.extractLsb'_toNat, Nat.shiftRight_eq_div_pow]

theorem fieldY_toNat : (fieldY w).toNat = w.toNat / 16 % 16 := by
  simp only [fieldY, BitVec.extractLsb'_toNat, Nat.shiftRight_eq_div_pow]

theorem fieldN_toNat : (fieldN w).toNat = w.toNat % 16 := by
  simp only [fieldN, BitVec.extractLsb'_toNat, Nat.shiftRight_eq_div_pow]
  omega

theorem fieldKk_toNat : (fieldKk w).toNat = w.toNat % 256 := by
  simp only [fieldKk, BitVec.extractLsb'_toNat, Nat.shiftRight_eq_div_pow]
  omega

theorem fieldNnn_toNat : (fieldNnn w).toNat = w.toNat % 4096 := by
  simp only [fieldNnn, BitVec.extractLsb'_toNat, Nat.shiftRight_eq_div_pow]
  omega

@[simp] theorem fieldH1_formatA : fieldH1 (formatA op nnn) = op := by
  have := nnn.isLt; have := op.isLt
  apply BitVec.eq_of_toNat_eq
  rw [fieldH1_toNat, formatA_toNat]
  omega

@[simp] theorem fieldNnn_formatA : fieldNnn (formatA op nnn) = nnn := by
  have := nnn.isLt; have := op.isLt
  apply BitVec.eq_of_toNat_eq
  rw [fieldNnn_toNat, formatA_toNat]
  omega

@[simp] theorem fieldH1_formatI : fieldH1 (formatI op x kk) = op := by
  have := kk.isLt; have := op.isLt; have := x.isLt
  apply BitVec.eq_of_toNat_eq
  rw [fieldH1_toNat, formatI_toNat]
  omega

@[simp] theorem fieldX_formatI : fieldX (formatI op x kk) = x := by
  have := kk.isLt; have := op.isLt; have := x.isLt
  apply BitVec.eq_of_toNat_eq
  rw [fieldX_toNat, formatI_toNat]
  omega

@[simp] theorem fieldKk_formatI : fieldKk (formatI op x kk) = kk := by
  have := kk.isLt; have := op.isLt; have := x.isLt
  apply BitVec.eq_of_toNat_eq
  rw [fieldKk_toNat, formatI_toNat]
  omega

@[simp] theorem fieldH1_formatR : fieldH1 (formatR op x y m) = op := by
  have := op.isLt; have := x.isLt; have := y.isLt; have := m.isLt
  apply BitVec.eq_of_toNat_eq
  rw [fieldH1_toNat, formatR_toNat]
  omega

@[simp] theorem fieldX_formatR : fieldX (formatR op x y m) = x := by
  have := op.isLt; have := x.isLt; have := y.isLt; have := m.isLt
  apply BitVec.eq_of_toNat_eq
  rw [fieldX_toNat, formatR_toNat]
  omega

@[simp] theorem fieldY_formatR : fieldY (formatR op x y m) = y := by
  have := op.isLt; have := x.isLt; have := y.isLt; have := m.isLt
  apply BitVec.eq_of_toNat_eq
  rw [fieldY_toNat, formatR_toNat]
  omega

@[simp] theorem fieldN_formatR : fieldN (formatR op x y m) = m := by
  have := op.isLt; have := x.isLt; have := y.isLt; have := m.isLt
  apply BitVec.eq_of_toNat_eq
  rw [fieldN_toNat, formatR_toNat]
  omega

@[simp] theorem fieldH1_formatX : fieldH1 (formatX op x kk) = op := fieldH1_formatI op x kk
@[simp] theorem fieldX_formatX : fieldX (formatX op x kk) = x := fieldX_formatI op x kk
@[simp] theorem fieldKk_formatX : fieldKk (formatX op x kk) = kk := fieldKk_formatI op x kk

/-- The two bytes of a word, the high byte first, make the word again (R68). -/
@[simp] theorem wordOfBytes_bytes : wordOfBytes (highByte w) (lowByte w) = w := by
  have := w.isLt
  apply BitVec.eq_of_toNat_eq
  rw [wordOfBytes, toNat_append8]
  simp only [highByte, lowByte, BitVec.extractLsb'_toNat, Nat.shiftRight_eq_div_pow]
  omega

@[simp] theorem decodeBytes_bytes : decodeBytes (highByte w) (lowByte w) = decode w := by
  rw [decodeBytes, wordOfBytes_bytes]

theorem tableWord_16 (n : Nat) (h : n < 65536) : (tableWord 16 n).toNat = n := by
  simp only [tableWord, BitVec.toNat_ofNat]
  omega

end Sys2Proof
end

