-- ==== Sys2Proof/Laws/Display.lean ====
section
/-! SUPPORT. The framebuffer's cells and the loops of the sprite engine (R202). -/

namespace Sys2Proof.Machine

theorem columnMask_getMsbD (c c' : Fin 64) : (columnMask c).getMsbD c' = decide (c' = c) := by
  have h1 := c.isLt
  have h2 := c'.isLt
  simp only [columnMask, BitVec.getMsbD, BitVec.getLsbD_shiftLeft, BitVec.getLsbD_one, Fin.ext_iff]
  by_cases h : c'.val = c.val
  · simp [h]; omega
  · simp [h]; omega

/-- A cell after one cell is written (R200). -/
theorem Framebuffer.cell_setCell (fb : Framebuffer) (r r' : Fin 32) (c c' : Fin 64) (b : Bool) :
    (fb.setCell r c b).cell r' c' = if r' = r ∧ c' = c then b else fb.cell r' c' := by
  by_cases hr : r' = r
  · subst hr
    simp only [Framebuffer.cell, Framebuffer.setCell, Fin.getElem_fin, Vector.getElem_set_self]
    cases b
    · by_cases hc : c' = c
      · simp [hc, BitVec.getMsbD_and, BitVec.getMsbD_not, columnMask_getMsbD]
      · simp [hc, BitVec.getMsbD_and, BitVec.getMsbD_not, columnMask_getMsbD]
    · by_cases hc : c' = c
      · simp [hc, BitVec.getMsbD_or, columnMask_getMsbD]
      · simp [hc, BitVec.getMsbD_or, columnMask_getMsbD]
  · have : r.val ≠ r'.val := fun e => hr (Fin.ext e.symm)
    simp [Framebuffer.cell, Framebuffer.setCell, this, hr]

/-- Two framebuffers with the same cells are the same. -/
theorem Framebuffer.ext_cell {fb fb' : Framebuffer} (h : ∀ r c, fb.cell r c = fb'.cell r c) : fb = fb' := by
  apply Vector.ext
  intro r hr
  apply BitVec.eq_of_getMsbD_eq
  intro c hc
  exact h ⟨r, hr⟩ ⟨c, hc⟩

@[simp] theorem Framebuffer.cell_dark (r : Fin 32) (c : Fin 64) : Framebuffer.dark.cell r c = false := by
  simp [Framebuffer.dark, Framebuffer.cell]

/-- A cell after one pixel is drawn (R202). -/
theorem drawPixel_cell (d : Drawing) (row r : Fin 32) (col c : Fin 64) (bit : Bool) :
    (drawPixel d row col bit).fb.cell r c = (d.fb.cell r c ^^ (decide (r = row ∧ c = col) && bit)) := by
  simp only [drawPixel, Framebuffer.cell_setCell]
  by_cases h : r = row ∧ c = col
  · simp [h.1, h.2]
  · simp [h]

/-- A cell and the collision bit after the columns of one sprite row (R202), where no column is named twice. -/
theorem drawColumns_spec (x0 : Nat) (row : Fin 32) (b : Byte) (cs : List Nat) (d : Drawing)
    (hcs : cs.Pairwise fun c c' => wrapCol (x0 + c) ≠ wrapCol (x0 + c')) :
    (∀ r c, (drawColumns x0 row b d cs).fb.cell r c =
      (d.fb.cell r c ^^ decide (r = row ∧ ∃ k ∈ cs, c = wrapCol (x0 + k) ∧ b.getLsbD (7 - k) = true))) ∧
    ((drawColumns x0 row b d cs).collision = true ↔ d.collision = true ∨
      ∃ k ∈ cs, b.getLsbD (7 - k) = true ∧ d.fb.cell row (wrapCol (x0 + k)) = true) := by
  induction cs generalizing d with
  | nil => simp [drawColumns]
  | cons k cs ih =>
    obtain ⟨hk, hcs⟩ := List.pairwise_cons.mp hcs
    obtain ⟨ih1, ih2⟩ := ih (drawPixel d row (wrapCol (x0 + k)) (b.getLsbD (7 - k))) hcs
    constructor
    · intro r c
      rw [drawColumns, ih1, drawPixel_cell]
      by_cases hr : r = row
      · by_cases hc : c = wrapCol (x0 + k)
        · have : ¬ ∃ k' ∈ cs, c = wrapCol (x0 + k') ∧ b.getLsbD (7 - k') = true := by
            rintro ⟨k', hk', e, -⟩
            exact hk k' hk' (hc ▸ e)
          have e : (∃ k' ∈ k :: cs, c = wrapCol (x0 + k') ∧ b.getLsbD (7 - k') = true) ↔
              b.getLsbD (7 - k) = true := by
            constructor
            · rintro ⟨k', hk', e1, e2⟩
              rcases List.mem_cons.mp hk' with rfl | hk'
              · exact e2
              · exact absurd ⟨k', hk', e1, e2⟩ this
            · exact fun e => ⟨k, by simp, hc, e⟩
          simp only [hr, true_and, this, e, decide_false, Bool.xor_false]
          simp [hc]
        · have e : (∃ k' ∈ k :: cs, c = wrapCol (x0 + k') ∧ b.getLsbD (7 - k') = true) ↔
              ∃ k' ∈ cs, c = wrapCol (x0 + k') ∧ b.getLsbD (7 - k') = true := by
            constructor
            · rintro ⟨k', hk', e1, e2⟩
              rcases List.mem_cons.mp hk' with rfl | hk'
              · exact absurd e1 hc
              · exact ⟨k', hk', e1, e2⟩
            · exact fun ⟨k', hk', e⟩ => ⟨k', by simp [hk'], e⟩
          simp only [hr, true_and, e, hc, decide_false, Bool.false_and, Bool.xor_false]
      · simp [hr]
    · rw [drawColumns, ih2]
      simp only [drawPixel, Framebuffer.cell_setCell, List.mem_cons, Bool.or_eq_true, Bool.and_eq_true]
      constructor
      · rintro ((h | ⟨h1, h2⟩) | ⟨k', hk', h1, h2⟩)
        · exact .inl h
        · exact .inr ⟨k, .inl rfl, h2, h1⟩
        · rw [if_neg (fun e => hk k' hk' e.2.symm)] at h2
          exact .inr ⟨k', .inr hk', h1, h2⟩
      · rintro (h | ⟨k', rfl | hk', h1, h2⟩)
        · exact .inl (.inl h)
        · exact .inl (.inr ⟨h2, h1⟩)
        · refine .inr ⟨k', hk', h1, ?_⟩
          rw [if_neg (fun e => hk k' hk' e.2.symm)]
          exact h2

theorem columns_distinct (x0 : Nat) :
    [0, 1, 2, 3, 4, 5, 6, 7].Pairwise fun c c' => wrapCol (x0 + c) ≠ wrapCol (x0 + c') := by
  simp only [List.pairwise_cons, List.mem_cons, wrapCol, ne_eq, Fin.mk.injEq]
  simp
  omega

end Sys2Proof.Machine
end

