-- ==== Sys2Proof/Laws/Memory.lean ====
section
/-! SUPPORT. Memory: a read after a write, and the canonical form, which every memory operation keeps. -/

namespace Sys2Proof.Machine

variable {font : Vector Byte 80}

theorem Memory.read_erase_same (a : Nat) (m : Memory) :
    Memory.read font (Memory.erase a m) a = Memory.unlisted font a := by
  induction m with
  | nil => rfl
  | cons c m ih =>
    obtain ⟨k, b⟩ := c
    by_cases h : k = a
    · simpa [Memory.erase, h] using ih
    · simpa [Memory.erase, Memory.read, h] using ih

theorem Memory.read_erase_other {a a' : Nat} (h : a' ≠ a) (m : Memory) :
    Memory.read font (Memory.erase a m) a' = Memory.read font m a' := by
  induction m with
  | nil => rfl
  | cons c m ih =>
    obtain ⟨k, b⟩ := c
    by_cases hk : k = a
    · have : k ≠ a' := fun e => h (e ▸ hk)
      simpa [Memory.erase, Memory.read, hk, this, Ne.symm h] using ih
    · have e : Memory.erase a ((k, b) :: m) = (k, b) :: Memory.erase a m := by simp [Memory.erase, hk]
      rw [e]
      simp only [Memory.read, ih]

theorem Memory.read_insert_other {a a' : Nat} (h : a' ≠ a) (b : Byte) (m : Memory) :
    Memory.read font (Memory.insert a b m) a' = Memory.read font m a' := by
  induction m with
  | nil => simp [Memory.insert, Memory.read, Ne.symm h]
  | cons c m ih =>
    obtain ⟨k, d⟩ := c
    simp only [Memory.insert]
    split <;> simp [Memory.read, Ne.symm h, ih]

theorem Memory.read_insert_same {a : Nat} (b : Byte) {m : Memory} (h : ∀ c ∈ m, c.1 ≠ a) :
    Memory.read font (Memory.insert a b m) a = b := by
  induction m with
  | nil => simp [Memory.insert, Memory.read]
  | cons c m ih =>
    obtain ⟨k, d⟩ := c
    have hk : k ≠ a := h (k, d) (by simp)
    have ih := ih fun c hc => h c (by simp [hc])
    simp only [Memory.insert]
    split <;> simp [Memory.read, hk, ih]

theorem Memory.ne_of_mem_erase {a : Nat} {m : Memory} {c : Host.Cell} (h : c ∈ Memory.erase a m) : c.1 ≠ a := by
  simpa using (List.mem_filter.mp h).2

/-- A read after a write: the byte written at its address, the old byte elsewhere (R64, R74). -/
theorem Memory.read_write (m : Memory) (a a' : Nat) (b : Byte) :
    Memory.read font (Memory.write font m a b) a' = if a' = a then b else Memory.read font m a' := by
  unfold Memory.write
  by_cases h : a' = a
  · subst h
    rw [if_pos rfl]
    split
    · rw [Memory.read_erase_same, ‹b = _›]
    · exact Memory.read_insert_same b fun c hc => Memory.ne_of_mem_erase hc
  · rw [if_neg h]
    split
    · exact Memory.read_erase_other h m
    · rw [Memory.read_insert_other h, Memory.read_erase_other h]

/-- What is read after a sequence of bytes is written at rising addresses (R64, R72). -/
theorem Memory.read_writeList (bs : List Byte) (m : Memory) (a a' : Nat) :
    Memory.read font (Memory.writeList font m a bs) a' =
      if h : a ≤ a' ∧ a' - a < bs.length then bs[a' - a]'h.2 else Memory.read font m a' := by
  induction bs generalizing m a with
  | nil => simp [Memory.writeList]
  | cons b bs ih =>
    rw [Memory.writeList, ih]
    rcases Nat.lt_trichotomy a' a with h | h | h
    · rw [dif_neg (by omega), dif_neg (by omega), Memory.read_write, if_neg (by omega)]
    · subst h
      rw [dif_neg (by omega), dif_pos (by simp), Memory.read_write, if_pos rfl]
      simp
    · obtain ⟨d, rfl⟩ : ∃ d, a' = a + 1 + d := ⟨a' - (a + 1), by omega⟩
      have e1 : a + 1 + d - (a + 1) = d := by omega
      have e2 : a + 1 + d - a = d + 1 := by omega
      by_cases hd : d < bs.length
      · rw [dif_pos (by omega), dif_pos (by simp; omega)]
        simp [e1, e2]
      · rw [dif_neg (by omega), dif_neg (by simp; omega), Memory.read_write, if_neg (by omega)]

theorem Memory.wf_nil : Memory.wf font [] := by simp [Memory.wf]

theorem Memory.erase_wf {m : Memory} (h : Memory.wf font m) (a : Nat) : Memory.wf font (Memory.erase a m) :=
  ⟨h.1.sublist List.filter_sublist, fun c hc => h.2 c (List.mem_filter.mp hc).1⟩

theorem Memory.mem_insert {a : Nat} {b : Byte} {m : Memory} {c : Host.Cell} (h : c ∈ Memory.insert a b m) :
    c = (a, b) ∨ c ∈ m := by
  induction m with
  | nil => simpa [Memory.insert] using h
  | cons d m ih =>
    obtain ⟨k, e⟩ := d
    simp only [Memory.insert] at h
    split at h
    · simpa using h
    · rcases List.mem_cons.mp h with h | h
      · simp [h]
      · rcases ih h with h | h <;> simp [h]

theorem Memory.insert_rising {a : Nat} {b : Byte} {m : Memory} (h : m.Pairwise fun c d => c.1 < d.1)
    (ha : ∀ c ∈ m, c.1 ≠ a) : (Memory.insert a b m).Pairwise fun c d => c.1 < d.1 := by
  induction m with
  | nil => simp [Memory.insert]
  | cons d m ih =>
    obtain ⟨k, e⟩ := d
    have hk : k ≠ a := ha (k, e) (by simp)
    have ⟨h1, h2⟩ := List.pairwise_cons.mp h
    simp only [Memory.insert]
    split
    · refine List.pairwise_cons.mpr ⟨fun c hc => ?_, h⟩
      rcases List.mem_cons.mp hc with rfl | hc
      · assumption
      · exact Nat.lt_trans ‹_› (h1 c hc)
    · refine List.pairwise_cons.mpr ⟨fun c hc => ?_, ih h2 fun c hc => ha c (by simp [hc])⟩
      rcases Memory.mem_insert hc with rfl | hc
      · simp only; omega
      · exact h1 c hc

/-- A write to an address of the space keeps the canonical form. -/
theorem Memory.write_wf {m : Memory} (h : Memory.wf font m) {a : Nat} (ha : a < Config.memSize) (b : Byte) :
    Memory.wf font (Memory.write font m a b) := by
  have he := Memory.erase_wf h a
  unfold Memory.write
  split
  · exact he
  · refine ⟨Memory.insert_rising he.1 fun c hc => Memory.ne_of_mem_erase hc, fun c hc => ?_⟩
    rcases Memory.mem_insert hc with rfl | hc
    · exact ⟨ha, ‹_›⟩
    · exact he.2 c hc

/-- A write of bytes inside the space keeps the canonical form. -/
theorem Memory.writeList_wf (bs : List Byte) {m : Memory} (h : Memory.wf font m) {a : Nat}
    (ha : a + bs.length ≤ Config.memSize) : Memory.wf font (Memory.writeList font m a bs) := by
  induction bs generalizing m a with
  | nil => exact h
  | cons b bs ih =>
    simp only [List.length_cons] at ha
    exact ih (Memory.write_wf h (by omega) b) (by omega)

/-- An address below every listed one reads as unlisted. -/
theorem Memory.read_of_lt_head {m : Memory} {a : Nat} (h : ∀ c ∈ m, a < c.1) :
    Memory.read font m a = Memory.unlisted font a := by
  induction m with
  | nil => rfl
  | cons c m ih =>
    obtain ⟨k, b⟩ := c
    have hk : a < k := h (k, b) (by simp)
    rw [Memory.read, if_neg (by omega), ih fun c hc => h c (by simp [hc])]

@[simp] theorem State.bytesFrom_length (s : State) (a n : Nat) : (s.bytesFrom a n).length = n := by
  induction n generalizing a with
  | zero => rfl
  | succ n ih => simp [State.bytesFrom, ih]

/-- Byte k of the n bytes from a is MEM[a + k] (R63). -/
theorem State.bytesFrom_getElem (s : State) {a n k : Nat} (h : k < (s.bytesFrom a n).length) :
    (s.bytesFrom a n)[k] = s.byteAt (a + k) := by
  induction n generalizing a k with
  | zero => simp at h
  | succ n ih =>
    cases k with
    | zero => rfl
    | succ k =>
      simp only [State.bytesFrom, List.getElem_cons_succ]
      rw [ih, Nat.add_assoc, Nat.add_comm 1 k]

end Sys2Proof.Machine
end

