-- ==== Sys2Proof/Laws/State.lean ====
section
/-! SUPPORT. One lemma per field and update of the state, so that no later proof unfolds a record update. -/

namespace Sys2Proof.Machine

variable (s : State)

/-! `State.setReg` -/

@[simp] theorem State.setReg_v (x : Reg) (b : Byte) : (s.setReg x b).v = s.v.set x.toNat b x.isLt := rfl
@[simp] theorem State.setReg_i (x : Reg) (b : Byte) : (s.setReg x b).i = s.i := rfl
@[simp] theorem State.setReg_pc (x : Reg) (b : Byte) : (s.setReg x b).pc = s.pc := rfl
@[simp] theorem State.setReg_sp (x : Reg) (b : Byte) : (s.setReg x b).sp = s.sp := rfl
@[simp] theorem State.setReg_stack (x : Reg) (b : Byte) : (s.setReg x b).stack = s.stack := rfl
@[simp] theorem State.setReg_dt (x : Reg) (b : Byte) : (s.setReg x b).dt = s.dt := rfl
@[simp] theorem State.setReg_st (x : Reg) (b : Byte) : (s.setReg x b).st = s.st := rfl
@[simp] theorem State.setReg_mem (x : Reg) (b : Byte) : (s.setReg x b).mem = s.mem := rfl
@[simp] theorem State.setReg_fb (x : Reg) (b : Byte) : (s.setReg x b).fb = s.fb := rfl
@[simp] theorem State.setReg_keys (x : Reg) (b : Byte) : (s.setReg x b).keys = s.keys := rfl
@[simp] theorem State.setReg_wait (x : Reg) (b : Byte) : (s.setReg x b).wait = s.wait := rfl
@[simp] theorem State.setReg_buzz (x : Reg) (b : Byte) : (s.setReg x b).buzz = s.buzz := rfl
@[simp] theorem State.setReg_fault (x : Reg) (b : Byte) : (s.setReg x b).fault = s.fault := rfl
@[simp] theorem State.setReg_font (x : Reg) (b : Byte) : (s.setReg x b).font = s.font := rfl
@[simp] theorem State.setReg_draws (x : Reg) (b : Byte) : (s.setReg x b).draws = s.draws := rfl
@[simp] theorem State.setReg_events (x : Reg) (b : Byte) : (s.setReg x b).events = s.events := rfl

/-! `State.setPc` -/

@[simp] theorem State.setPc_v (p : Word) : (s.setPc p).v = s.v := rfl
@[simp] theorem State.setPc_i (p : Word) : (s.setPc p).i = s.i := rfl
@[simp] theorem State.setPc_pc (p : Word) : (s.setPc p).pc = p := rfl
@[simp] theorem State.setPc_sp (p : Word) : (s.setPc p).sp = s.sp := rfl
@[simp] theorem State.setPc_stack (p : Word) : (s.setPc p).stack = s.stack := rfl
@[simp] theorem State.setPc_dt (p : Word) : (s.setPc p).dt = s.dt := rfl
@[simp] theorem State.setPc_st (p : Word) : (s.setPc p).st = s.st := rfl
@[simp] theorem State.setPc_mem (p : Word) : (s.setPc p).mem = s.mem := rfl
@[simp] theorem State.setPc_fb (p : Word) : (s.setPc p).fb = s.fb := rfl
@[simp] theorem State.setPc_keys (p : Word) : (s.setPc p).keys = s.keys := rfl
@[simp] theorem State.setPc_wait (p : Word) : (s.setPc p).wait = s.wait := rfl
@[simp] theorem State.setPc_buzz (p : Word) : (s.setPc p).buzz = s.buzz := rfl
@[simp] theorem State.setPc_fault (p : Word) : (s.setPc p).fault = s.fault := rfl
@[simp] theorem State.setPc_font (p : Word) : (s.setPc p).font = s.font := rfl
@[simp] theorem State.setPc_draws (p : Word) : (s.setPc p).draws = s.draws := rfl
@[simp] theorem State.setPc_events (p : Word) : (s.setPc p).events = s.events := rfl

/-! `State.advance` -/

@[simp] theorem State.advance_v : s.advance.v = s.v := rfl
@[simp] theorem State.advance_i : s.advance.i = s.i := rfl
@[simp] theorem State.advance_pc : s.advance.pc = s.pc + 2 := rfl
@[simp] theorem State.advance_sp : s.advance.sp = s.sp := rfl
@[simp] theorem State.advance_stack : s.advance.stack = s.stack := rfl
@[simp] theorem State.advance_dt : s.advance.dt = s.dt := rfl
@[simp] theorem State.advance_st : s.advance.st = s.st := rfl
@[simp] theorem State.advance_mem : s.advance.mem = s.mem := rfl
@[simp] theorem State.advance_fb : s.advance.fb = s.fb := rfl
@[simp] theorem State.advance_keys : s.advance.keys = s.keys := rfl
@[simp] theorem State.advance_wait : s.advance.wait = s.wait := rfl
@[simp] theorem State.advance_buzz : s.advance.buzz = s.buzz := rfl
@[simp] theorem State.advance_fault : s.advance.fault = s.fault := rfl
@[simp] theorem State.advance_font : s.advance.font = s.font := rfl
@[simp] theorem State.advance_draws : s.advance.draws = s.draws := rfl
@[simp] theorem State.advance_events : s.advance.events = s.events := rfl

/-! `State.skipIf` -/

@[simp] theorem State.skipIf_v (c : Bool) : (s.skipIf c).v = s.v := rfl
@[simp] theorem State.skipIf_i (c : Bool) : (s.skipIf c).i = s.i := rfl
@[simp] theorem State.skipIf_pc (c : Bool) : (s.skipIf c).pc = if c then s.pc + 4 else s.pc + 2 := rfl
@[simp] theorem State.skipIf_sp (c : Bool) : (s.skipIf c).sp = s.sp := rfl
@[simp] theorem State.skipIf_stack (c : Bool) : (s.skipIf c).stack = s.stack := rfl
@[simp] theorem State.skipIf_dt (c : Bool) : (s.skipIf c).dt = s.dt := rfl
@[simp] theorem State.skipIf_st (c : Bool) : (s.skipIf c).st = s.st := rfl
@[simp] theorem State.skipIf_mem (c : Bool) : (s.skipIf c).mem = s.mem := rfl
@[simp] theorem State.skipIf_fb (c : Bool) : (s.skipIf c).fb = s.fb := rfl
@[simp] theorem State.skipIf_keys (c : Bool) : (s.skipIf c).keys = s.keys := rfl
@[simp] theorem State.skipIf_wait (c : Bool) : (s.skipIf c).wait = s.wait := rfl
@[simp] theorem State.skipIf_buzz (c : Bool) : (s.skipIf c).buzz = s.buzz := rfl
@[simp] theorem State.skipIf_fault (c : Bool) : (s.skipIf c).fault = s.fault := rfl
@[simp] theorem State.skipIf_font (c : Bool) : (s.skipIf c).font = s.font := rfl
@[simp] theorem State.skipIf_draws (c : Bool) : (s.skipIf c).draws = s.draws := rfl
@[simp] theorem State.skipIf_events (c : Bool) : (s.skipIf c).events = s.events := rfl

/-! `State.raise` -/

@[simp] theorem State.raise_v (f : FaultRecord) : (s.raise f).v = s.v := rfl
@[simp] theorem State.raise_i (f : FaultRecord) : (s.raise f).i = s.i := rfl
@[simp] theorem State.raise_pc (f : FaultRecord) : (s.raise f).pc = s.pc := rfl
@[simp] theorem State.raise_sp (f : FaultRecord) : (s.raise f).sp = s.sp := rfl
@[simp] theorem State.raise_stack (f : FaultRecord) : (s.raise f).stack = s.stack := rfl
@[simp] theorem State.raise_dt (f : FaultRecord) : (s.raise f).dt = s.dt := rfl
@[simp] theorem State.raise_st (f : FaultRecord) : (s.raise f).st = s.st := rfl
@[simp] theorem State.raise_mem (f : FaultRecord) : (s.raise f).mem = s.mem := rfl
@[simp] theorem State.raise_fb (f : FaultRecord) : (s.raise f).fb = s.fb := rfl
@[simp] theorem State.raise_keys (f : FaultRecord) : (s.raise f).keys = s.keys := rfl
@[simp] theorem State.raise_wait (f : FaultRecord) : (s.raise f).wait = s.wait := rfl
@[simp] theorem State.raise_buzz (f : FaultRecord) : (s.raise f).buzz = s.buzz := rfl
@[simp] theorem State.raise_fault (f : FaultRecord) : (s.raise f).fault = some f := rfl
@[simp] theorem State.raise_font (f : FaultRecord) : (s.raise f).font = s.font := rfl
@[simp] theorem State.raise_draws (f : FaultRecord) : (s.raise f).draws = s.draws := rfl
@[simp] theorem State.raise_events (f : FaultRecord) : (s.raise f).events = s.events := rfl

/-! `State.countDraw` -/

@[simp] theorem State.countDraw_v : s.countDraw.v = s.v := rfl
@[simp] theorem State.countDraw_i : s.countDraw.i = s.i := rfl
@[simp] theorem State.countDraw_pc : s.countDraw.pc = s.pc := rfl
@[simp] theorem State.countDraw_sp : s.countDraw.sp = s.sp := rfl
@[simp] theorem State.countDraw_stack : s.countDraw.stack = s.stack := rfl
@[simp] theorem State.countDraw_dt : s.countDraw.dt = s.dt := rfl
@[simp] theorem State.countDraw_st : s.countDraw.st = s.st := rfl
@[simp] theorem State.countDraw_mem : s.countDraw.mem = s.mem := rfl
@[simp] theorem State.countDraw_fb : s.countDraw.fb = s.fb := rfl
@[simp] theorem State.countDraw_keys : s.countDraw.keys = s.keys := rfl
@[simp] theorem State.countDraw_wait : s.countDraw.wait = s.wait := rfl
@[simp] theorem State.countDraw_buzz : s.countDraw.buzz = s.buzz := rfl
@[simp] theorem State.countDraw_fault : s.countDraw.fault = s.fault := rfl
@[simp] theorem State.countDraw_font : s.countDraw.font = s.font := rfl
@[simp] theorem State.countDraw_draws : s.countDraw.draws = s.draws + 1 := rfl
@[simp] theorem State.countDraw_events : s.countDraw.events = s.events := rfl

/-! `State.setRegsFrom0` -/

@[simp] theorem State.setRegsFrom0_v (bs : List Byte) : (s.setRegsFrom0 bs).v = writeRegs s.v 0 bs := rfl
@[simp] theorem State.setRegsFrom0_i (bs : List Byte) : (s.setRegsFrom0 bs).i = s.i := rfl
@[simp] theorem State.setRegsFrom0_pc (bs : List Byte) : (s.setRegsFrom0 bs).pc = s.pc := rfl
@[simp] theorem State.setRegsFrom0_sp (bs : List Byte) : (s.setRegsFrom0 bs).sp = s.sp := rfl
@[simp] theorem State.setRegsFrom0_stack (bs : List Byte) : (s.setRegsFrom0 bs).stack = s.stack := rfl
@[simp] theorem State.setRegsFrom0_dt (bs : List Byte) : (s.setRegsFrom0 bs).dt = s.dt := rfl
@[simp] theorem State.setRegsFrom0_st (bs : List Byte) : (s.setRegsFrom0 bs).st = s.st := rfl
@[simp] theorem State.setRegsFrom0_mem (bs : List Byte) : (s.setRegsFrom0 bs).mem = s.mem := rfl
@[simp] theorem State.setRegsFrom0_fb (bs : List Byte) : (s.setRegsFrom0 bs).fb = s.fb := rfl
@[simp] theorem State.setRegsFrom0_keys (bs : List Byte) : (s.setRegsFrom0 bs).keys = s.keys := rfl
@[simp] theorem State.setRegsFrom0_wait (bs : List Byte) : (s.setRegsFrom0 bs).wait = s.wait := rfl
@[simp] theorem State.setRegsFrom0_buzz (bs : List Byte) : (s.setRegsFrom0 bs).buzz = s.buzz := rfl
@[simp] theorem State.setRegsFrom0_fault (bs : List Byte) : (s.setRegsFrom0 bs).fault = s.fault := rfl
@[simp] theorem State.setRegsFrom0_font (bs : List Byte) : (s.setRegsFrom0 bs).font = s.font := rfl
@[simp] theorem State.setRegsFrom0_draws (bs : List Byte) : (s.setRegsFrom0 bs).draws = s.draws := rfl
@[simp] theorem State.setRegsFrom0_events (bs : List Byte) : (s.setRegsFrom0 bs).events = s.events := rfl

/-! `State.setKey` -/

@[simp] theorem State.setKey_v (k : Key) (d : Bool) : (s.setKey k d).v = s.v := rfl
@[simp] theorem State.setKey_i (k : Key) (d : Bool) : (s.setKey k d).i = s.i := rfl
@[simp] theorem State.setKey_pc (k : Key) (d : Bool) : (s.setKey k d).pc = s.pc := rfl
@[simp] theorem State.setKey_sp (k : Key) (d : Bool) : (s.setKey k d).sp = s.sp := rfl
@[simp] theorem State.setKey_stack (k : Key) (d : Bool) : (s.setKey k d).stack = s.stack := rfl
@[simp] theorem State.setKey_dt (k : Key) (d : Bool) : (s.setKey k d).dt = s.dt := rfl
@[simp] theorem State.setKey_st (k : Key) (d : Bool) : (s.setKey k d).st = s.st := rfl
@[simp] theorem State.setKey_mem (k : Key) (d : Bool) : (s.setKey k d).mem = s.mem := rfl
@[simp] theorem State.setKey_fb (k : Key) (d : Bool) : (s.setKey k d).fb = s.fb := rfl
@[simp] theorem State.setKey_keys (k : Key) (d : Bool) : (s.setKey k d).keys = s.keys.set k.toNat d k.isLt := rfl
@[simp] theorem State.setKey_wait (k : Key) (d : Bool) : (s.setKey k d).wait = s.wait := rfl
@[simp] theorem State.setKey_buzz (k : Key) (d : Bool) : (s.setKey k d).buzz = s.buzz := rfl
@[simp] theorem State.setKey_fault (k : Key) (d : Bool) : (s.setKey k d).fault = s.fault := rfl
@[simp] theorem State.setKey_font (k : Key) (d : Bool) : (s.setKey k d).font = s.font := rfl
@[simp] theorem State.setKey_draws (k : Key) (d : Bool) : (s.setKey k d).draws = s.draws := rfl
@[simp] theorem State.setKey_events (k : Key) (d : Bool) : (s.setKey k d).events = s.events := rfl

/-! `State.consumeEvent` -/

@[simp] theorem State.consumeEvent_v : s.consumeEvent.v = s.v := rfl
@[simp] theorem State.consumeEvent_i : s.consumeEvent.i = s.i := rfl
@[simp] theorem State.consumeEvent_pc : s.consumeEvent.pc = s.pc := rfl
@[simp] theorem State.consumeEvent_sp : s.consumeEvent.sp = s.sp := rfl
@[simp] theorem State.consumeEvent_stack : s.consumeEvent.stack = s.stack := rfl
@[simp] theorem State.consumeEvent_dt : s.consumeEvent.dt = s.dt := rfl
@[simp] theorem State.consumeEvent_st : s.consumeEvent.st = s.st := rfl
@[simp] theorem State.consumeEvent_mem : s.consumeEvent.mem = s.mem := rfl
@[simp] theorem State.consumeEvent_fb : s.consumeEvent.fb = s.fb := rfl
@[simp] theorem State.consumeEvent_keys : s.consumeEvent.keys = s.keys := rfl
@[simp] theorem State.consumeEvent_wait : s.consumeEvent.wait = s.wait := rfl
@[simp] theorem State.consumeEvent_buzz : s.consumeEvent.buzz = s.buzz := rfl
@[simp] theorem State.consumeEvent_fault : s.consumeEvent.fault = s.fault := rfl
@[simp] theorem State.consumeEvent_font : s.consumeEvent.font = s.font := rfl
@[simp] theorem State.consumeEvent_draws : s.consumeEvent.draws = s.draws := rfl
@[simp] theorem State.consumeEvent_events : s.consumeEvent.events = s.events.tail := rfl

end Sys2Proof.Machine
end

