-- ==== Sys2Proof/Laws/Ops.lean ====
section
/-! SUPPORT. For each shared operation, once, everything it can do. -/

namespace Sys2Proof.Machine

/-! ### Registers -/

@[simp] theorem State.reg_setReg_same (s : State) (x : Reg) (b : Byte) : (s.setReg x b).reg x = b := by
  simp [State.reg, State.setReg]

theorem State.reg_setReg_other (s : State) {x z : Reg} (h : z ≠ x) (b : Byte) :
    (s.setReg x b).reg z = s.reg z := by
  have : x.toNat ≠ z.toNat := fun e => h (BitVec.eq_of_toNat_eq e.symm)
  simp [State.reg, State.setReg, this]

theorem State.reg_setReg (s : State) (x z : Reg) (b : Byte) :
    (s.setReg x b).reg z = if z = x then b else s.reg z := by
  by_cases h : z = x
  · subst h; simp
  · simp [h, State.reg_setReg_other]

/-- Register reads see only V. -/
theorem State.reg_congr {s t : State} (h : t.v = s.v) (z : Reg) : t.reg z = s.reg z := by
  simp only [State.reg, h]

@[simp] theorem State.reg_setPc (s : State) (p : Word) (z : Reg) : (s.setPc p).reg z = s.reg z := rfl
@[simp] theorem State.reg_advance (s : State) (z : Reg) : s.advance.reg z = s.reg z := rfl
@[simp] theorem State.reg_countDraw (s : State) (z : Reg) : s.countDraw.reg z = s.reg z := rfl
@[simp] theorem State.reg_raise (s : State) (f : FaultRecord) (z : Reg) : (s.raise f).reg z = s.reg z := rfl
@[simp] theorem State.reg_setKey (s : State) (k : Key) (d : Bool) (z : Reg) : (s.setKey k d).reg z = s.reg z := rfl

/-- Byte reads see only MEM and FONT. -/
theorem State.byteAt_congr {s t : State} (hf : t.font = s.font) (hm : t.mem = s.mem) (a : Nat) :
    t.byteAt a = s.byteAt a := by
  simp only [State.byteAt, hf, hm]

@[simp] theorem State.byteAt_setReg (s : State) (x : Reg) (b : Byte) (a : Nat) :
    (s.setReg x b).byteAt a = s.byteAt a := rfl
@[simp] theorem State.byteAt_setPc (s : State) (p : Word) (a : Nat) : (s.setPc p).byteAt a = s.byteAt a := rfl
@[simp] theorem State.byteAt_advance (s : State) (a : Nat) : s.advance.byteAt a = s.byteAt a := rfl
@[simp] theorem State.byteAt_raise (s : State) (f : FaultRecord) (a : Nat) :
    (s.raise f).byteAt a = s.byteAt a := rfl
@[simp] theorem State.byteAt_consumeEvent (s : State) (a : Nat) : s.consumeEvent.byteAt a = s.byteAt a := rfl

/-- `write2` with x not VF: the result in V[x], the flag in VF, nothing else (R163). -/
theorem State.write2_ne (s : State) {x : Reg} (h : x ≠ VF) (r f : Byte) :
    s.write2 x r f = (s.setReg x r).setReg VF f := by
  simp [State.write2, h]

/-- `write2` with x = VF: a free byte in VF, and one draw counted (R163). -/
theorem State.write2_VF (s : State) (r f : Byte) :
    s.write2 VF r f = (s.setReg VF s.draw).countDraw := by
  simp [State.write2]

/-- What `write2` leaves in a register (R163). -/
theorem State.reg_write2 (s : State) (x z : Reg) (r f : Byte) :
    (s.write2 x r f).reg z =
      if z = VF then (if x = VF then s.draw else f) else if z = x then r else s.reg z := by
  by_cases hx : x = VF
  · subst hx
    rw [State.write2_VF, State.reg_countDraw, State.reg_setReg]
    by_cases hz : z = VF <;> simp [hz]
  · rw [State.write2_ne s hx, State.reg_setReg, State.reg_setReg]
    simp [hx]

/-- `write2` writes V and the model's count of draws, nothing else. -/
theorem State.write2_frame (s : State) (x : Reg) (r f : Byte) :
    s.write2 x r f = { s with v := (s.write2 x r f).v, draws := (s.write2 x r f).draws } := by
  unfold State.write2
  split <;> rfl

theorem State.write2_draws (s : State) (x : Reg) (r f : Byte) :
    (s.write2 x r f).draws = if x = VF then s.draws + 1 else s.draws := by
  unfold State.write2
  split <;> simp

/-- What a block load leaves in register j: its byte of the block, or what it held (R185). -/
theorem getElem_writeRegs (bs : List Byte) (v : Vector Byte 16) (k j : Nat) (hj : j < 16) :
    (writeRegs v k bs)[j] = if h : k ≤ j ∧ j - k < bs.length then bs[j - k]'h.2 else v[j] := by
  induction bs generalizing v k with
  | nil => simp [writeRegs]
  | cons b bs ih =>
    rw [writeRegs, ih]
    rcases Nat.lt_trichotomy j k with h | h | h
    · rw [dif_neg (by omega), dif_neg (by omega), Vector.getElem_setIfInBounds, if_neg (by omega)]
    · subst h
      rw [dif_neg (by omega), dif_pos (by simp), Vector.getElem_setIfInBounds, if_pos rfl]
      simp
    · obtain ⟨d, rfl⟩ : ∃ d, j = k + 1 + d := ⟨j - (k + 1), by omega⟩
      have e1 : k + 1 + d - (k + 1) = d := by omega
      have e2 : k + 1 + d - k = d + 1 := by omega
      by_cases hd : d < bs.length
      · rw [dif_pos (by omega), dif_pos (by simp; omega)]
        simp [e1, e2]
      · rw [dif_neg (by omega), dif_neg (by simp; omega), Vector.getElem_setIfInBounds, if_neg (by omega)]

/-! ### Memory accesses -/

theorem State.memRead_ok (s : State) {a n : Nat} (h : a + n ≤ 4096) : s.memRead a n = .ok (s.bytesFrom a n) := by
  simp only [State.memRead, Config.memSize]
  rw [if_neg (by omega)]

theorem State.memRead_out (s : State) {a n : Nat} (h : 4096 < a + n) :
    s.memRead a n = .error (.dataOutOfRange (max a 4096)) := by
  simp only [State.memRead, Config.memSize]
  rw [if_pos h]

theorem State.memWrite_ok (s : State) {a : Nat} {bs : List Byte} (h : a + bs.length ≤ 4096) :
    s.memWrite a bs = .ok { s with mem := Memory.writeList s.font s.mem a bs } := by
  simp only [State.memWrite, Config.memSize]
  rw [if_neg (by omega)]

theorem State.memWrite_out (s : State) {a : Nat} {bs : List Byte} (h : 4096 < a + bs.length) :
    s.memWrite a bs = .error (.dataOutOfRange (max a 4096)) := by
  simp only [State.memWrite, Config.memSize]
  rw [if_pos h]

/-- If a write answers a state, the range was inside the space and only MEM changed. -/
theorem State.memWrite_inv {s t : State} {a : Nat} {bs : List Byte} (h : s.memWrite a bs = .ok t) :
    a + bs.length ≤ 4096 ∧ t = { s with mem := Memory.writeList s.font s.mem a bs } := by
  by_cases hr : 4096 < a + bs.length
  · rw [State.memWrite_out s hr] at h; cases h
  · rw [State.memWrite_ok s (by omega)] at h
    exact ⟨by omega, (Except.ok.inj h).symm⟩

theorem State.fetch_ok (s : State) (h : s.pc.toNat ≤ 4094) :
    s.fetch = .ok (s.byteAt s.pc.toNat, s.byteAt (s.pc.toNat + 1)) := by
  unfold State.fetch
  rw [if_neg (by omega)]

theorem State.fetch_out (s : State) (h : 4094 < s.pc.toNat) : s.fetch = .error (.fetchOutOfRange s.pc) := by
  unfold State.fetch
  rw [if_pos (by omega)]

/-! ### The end of an instruction -/

@[simp] theorem State.settle_ok (s t : State) : s.settle (.ok t) = .next t := rfl
@[simp] theorem State.settle_error (s : State) (f : FaultRecord) : s.settle (.error f) = .next (s.raise f) := rfl

/-- An instruction with one check ends in the state it made or in the fault it took, always in a next state. -/
theorem State.settle_cases (s : State) (r : Except FaultRecord State) :
    (∃ t, r = .ok t ∧ s.settle r = .next t) ∨ ∃ f, r = .error f ∧ s.settle r = .next (s.raise f) := by
  cases r with
  | ok t => exact .inl ⟨t, rfl, rfl⟩
  | error f => exact .inr ⟨f, rfl, rfl⟩

/-- Everything a call can do (R123). -/
theorem State.callTo_cases (s : State) (p : Word) :
    (∃ h : s.sp.toNat < 15, s.callTo p =
      .next { s with stack := s.stack.set s.sp.toNat s.pc (by omega), sp := s.sp + 1, pc := p }) ∨
    (s.sp.toNat = 15 ∧ s.callTo p = .next (s.raise .stackOverflow)) ∨
    (15 < s.sp.toNat ∧ s.callTo p = .fault (.stackPointerOutOfRange s.sp)) := by
  unfold State.callTo
  by_cases h : s.sp.toNat < 15
  · exact .inl ⟨h, by rw [dif_pos h]⟩
  · by_cases h' : s.sp.toNat = 15
    · exact .inr (.inl ⟨h', by rw [dif_neg h, if_pos h']⟩)
    · exact .inr (.inr ⟨by omega, by rw [dif_neg h, if_neg h']⟩)

/-- Everything a return can do (R121). -/
theorem State.returnFromCall_cases (s : State) :
    (s.sp.toNat = 0 ∧ s.returnFromCall = .next (s.raise .stackUnderflow)) ∨
    (∃ h : 0 < s.sp.toNat ∧ s.sp.toNat ≤ 15, s.returnFromCall =
      .next { s with pc := s.stack[s.sp.toNat - 1]'(by omega) + 2, sp := s.sp - 1 }) ∨
    (15 < s.sp.toNat ∧ s.returnFromCall = .fault (.stackPointerOutOfRange s.sp)) := by
  unfold State.returnFromCall
  by_cases h : s.sp.toNat = 0
  · exact .inl ⟨h, by rw [if_pos h]⟩
  · by_cases h' : s.sp.toNat ≤ 15
    · exact .inr (.inl ⟨by omega, by rw [if_neg h, dif_pos h']⟩)
    · exact .inr (.inr ⟨by omega, by rw [if_neg h, dif_neg h']⟩)

/-- Everything a load can do (R293, R294). -/
theorem State.load_cases (s : State) (rom : List Byte) :
    (rom.length ≤ 0xE00 ∧ s.load rom = .next { State.reset with
      mem := Memory.writeList s.font [] 0x200 rom, font := s.font, draws := s.draws, events := s.events }) ∨
    (0xE00 < rom.length ∧ s.load rom = .refused (.loadTooLarge rom.length)) := by
  unfold State.load
  by_cases h : Config.programMax < rom.length
  · exact .inr ⟨h, by rw [if_pos h]⟩
  · exact .inl ⟨by simpa using h, by rw [if_neg h]⟩

/-! ### Keys -/

theorem State.keyDown_setKey (s : State) (k j : Key) (d : Bool) :
    (s.setKey k d).keyDown j = if j = k then d else s.keyDown j := by
  by_cases h : j = k
  · subst h; simp [State.keyDown, State.setKey]
  · have : k.toNat ≠ j.toNat := fun e => h (BitVec.eq_of_toNat_eq e.symm)
    simp [State.keyDown, State.setKey, this, h]

/-! ### Operands -/

theorem keyOperand_ok {b : Byte} (h : b.toNat ≤ 15) : keyOperand b = .ok (b.setWidth 4) := by
  unfold keyOperand
  rw [if_neg (by omega)]

theorem keyOperand_bad {b : Byte} (h : 15 < b.toNat) : keyOperand b = .error (.badKeyIndex b) := by
  unfold keyOperand
  rw [if_pos h]

theorem fontAddr_ok {b : Byte} (h : b.toNat ≤ 15) : fontAddr b = .ok (b.setWidth 16 * 5) := by
  unfold fontAddr
  rw [if_neg (by omega)]

theorem fontAddr_bad {b : Byte} (h : 15 < b.toNat) : fontAddr b = .error (.badFontDigit b) := by
  unfold fontAddr
  rw [if_pos h]

@[simp] theorem zext16_toNat (nnn : Addr12) : (zext16 nnn).toNat = nnn.toNat := by
  have := nnn.isLt
  simp only [zext16, BitVec.toNat_setWidth]
  omega

/-- The target of Bnnn never wraps: at most 0x10FE (R27, R128). -/
theorem State.targetV0_toNat (s : State) (nnn : Addr12) :
    (s.targetV0 nnn).toNat = nnn.toNat + (s.reg 0).toNat := by
  have h1 := nnn.isLt
  have h2 := (s.reg 0).isLt
  simp only [State.targetV0, BitVec.toNat_add, zext16_toNat, BitVec.toNat_setWidth]
  omega

@[simp] theorem bcdDigits_length (b : Byte) : (bcdDigits b).length = 3 := rfl

@[simp] theorem State.regsUpTo_length (s : State) (x : Reg) : (s.regsUpTo x).length = x.toNat + 1 := by
  have := x.isLt
  simp only [State.regsUpTo, List.length_take, Vector.length_toList]
  omega

/-- Byte k of the block is V[k] (R184). -/
theorem State.regsUpTo_getElem (s : State) {x : Reg} {k : Nat} (h : k < (s.regsUpTo x).length) :
    (s.regsUpTo x)[k] = s.reg (BitVec.ofNat 4 k) := by
  have hx := x.isLt
  have hk : k < 16 := by rw [State.regsUpTo_length] at h; omega
  simp only [State.regsUpTo, List.getElem_take, Vector.getElem_toList, State.reg, BitVec.toNat_ofNat]
  congr 1
  omega

end Sys2Proof.Machine
end

