-- ==== Sys2Proof/Laws/PerInstr.lean ====
section
/-! SUPPORT. The statements made per instruction. Family EncodedRow: the word of an instruction selects the row of
the opcode map that is the instruction's own (R95). -/

namespace Sys2Proof.Laws.EncodedRow

/-- The instruction's word selects the instruction's row of the opcode map (R95). -/
def Statement (i : Instr) : Prop :=
  ∃ r, opcodeMap[i.rowIndex]? = some r ∧ r.selects (encode i) = true

theorem and_append {m n : Nat} (a c : BitVec m) (b d : BitVec n) : (a ++ b) &&& (c ++ d) = (a &&& c) ++ (b &&& d) := by
  apply BitVec.eq_of_getLsbD_eq
  intro k _
  simp only [BitVec.getLsbD_and, BitVec.getLsbD_append]
  split <;> rfl

theorem and_ones4 (a : Nibble) : a &&& 0xF#4 = a := BitVec.and_allOnes
theorem and_ones8 (a : Byte) : a &&& 0xFF#8 = a := BitVec.and_allOnes

theorem high_nibble (a b : Nibble) : (a ++ b : Byte) &&& (0xF#4 ++ 0#4 : Byte) = (a ++ 0#4 : Byte) :=
  (and_append a 0xF#4 b 0#4).trans (by rw [and_ones4, BitVec.and_zero])

theorem low_nibble (a b : Nibble) : (a ++ b : Byte) &&& (0#4 ++ 0xF#4 : Byte) = (0#4 ++ b : Byte) :=
  (and_append a 0#4 b 0xF#4).trans (by rw [and_ones4, BitVec.and_zero])

/-- A word in format A selects the row that masks the major opcode. -/
theorem selects_A (op : Nibble) (nnn : Addr12) : OpRow.selects ⟨op ++ 0#12, 0xF#4 ++ 0#12⟩ (formatA op nnn) = true :=
  beq_iff_eq.mpr <| (and_append op 0xF#4 nnn 0#12).trans (by rw [and_ones4, BitVec.and_zero])

/-- A word in format I selects the row that masks the major opcode. -/
theorem selects_I (op x : Nibble) (kk : Byte) :
    OpRow.selects ⟨(op ++ 0#4 : Byte) ++ 0#8, (0xF#4 ++ 0#4 : Byte) ++ 0#8⟩ (formatI op x kk) = true :=
  beq_iff_eq.mpr <| (and_append (op ++ x : Byte) (0xF#4 ++ 0#4) kk 0#8).trans
    (by rw [high_nibble, BitVec.and_zero])

/-- A word in format R selects the row that masks the major and the minor opcode. -/
theorem selects_R (op x y m : Nibble) :
    OpRow.selects ⟨(op ++ 0#4 : Byte) ++ (0#4 ++ m : Byte), (0xF#4 ++ 0#4 : Byte) ++ (0#4 ++ 0xF#4 : Byte)⟩
      (formatR op x y m) = true :=
  beq_iff_eq.mpr <| (and_append (op ++ x : Byte) (0xF#4 ++ 0#4) (y ++ m : Byte) (0#4 ++ 0xF#4)).trans
    (by rw [high_nibble, low_nibble])

/-- A word in format D selects the row that masks the major opcode. -/
theorem selects_D (op x y n : Nibble) :
    OpRow.selects ⟨(op ++ 0#4 : Byte) ++ (0#4 ++ 0#4 : Byte), (0xF#4 ++ 0#4 : Byte) ++ (0#4 ++ 0#4 : Byte)⟩
      (formatR op x y n) = true :=
  beq_iff_eq.mpr <| (and_append (op ++ x : Byte) (0xF#4 ++ 0#4) (y ++ n : Byte) (0#4 ++ 0#4)).trans
    (by rw [high_nibble, show (0#4 ++ 0#4 : Byte) = 0#8 from rfl, BitVec.and_zero])

/-- A word in format X selects the row that masks the major opcode and the function. -/
theorem selects_X (op x : Nibble) (fn : Byte) :
    OpRow.selects ⟨(op ++ 0#4 : Byte) ++ fn, (0xF#4 ++ 0#4 : Byte) ++ 0xFF#8⟩ (formatX op x fn) = true :=
  beq_iff_eq.mpr <| (and_append (op ++ x : Byte) (0xF#4 ++ 0#4) fn 0xFF#8).trans
    (by rw [high_nibble, and_ones8])

theorem cls : Statement .cls := ⟨_, rfl, rfl⟩
theorem ret : Statement .ret := ⟨_, rfl, rfl⟩
theorem jp (nnn : Addr12) : Statement (.jp nnn) := ⟨_, rfl, selects_A 0x1 nnn⟩
theorem call (nnn : Addr12) : Statement (.call nnn) := ⟨_, rfl, selects_A 0x2 nnn⟩
theorem seVxKk (x : Reg) (kk : Byte) : Statement (.seVxKk x kk) := ⟨_, rfl, selects_I 0x3 x kk⟩
theorem sneVxKk (x : Reg) (kk : Byte) : Statement (.sneVxKk x kk) := ⟨_, rfl, selects_I 0x4 x kk⟩
theorem seVxVy (x : Reg) (y : Reg) : Statement (.seVxVy x y) := ⟨_, rfl, selects_R 0x5 x y 0x0⟩
theorem ldVxKk (x : Reg) (kk : Byte) : Statement (.ldVxKk x kk) := ⟨_, rfl, selects_I 0x6 x kk⟩
theorem addVxKk (x : Reg) (kk : Byte) : Statement (.addVxKk x kk) := ⟨_, rfl, selects_I 0x7 x kk⟩
theorem ldVxVy (x : Reg) (y : Reg) : Statement (.ldVxVy x y) := ⟨_, rfl, selects_R 0x8 x y 0x0⟩
theorem or (x : Reg) (y : Reg) : Statement (.or x y) := ⟨_, rfl, selects_R 0x8 x y 0x1⟩
theorem and (x : Reg) (y : Reg) : Statement (.and x y) := ⟨_, rfl, selects_R 0x8 x y 0x2⟩
theorem xor (x : Reg) (y : Reg) : Statement (.xor x y) := ⟨_, rfl, selects_R 0x8 x y 0x3⟩
theorem addVxVy (x : Reg) (y : Reg) : Statement (.addVxVy x y) := ⟨_, rfl, selects_R 0x8 x y 0x4⟩
theorem sub (x : Reg) (y : Reg) : Statement (.sub x y) := ⟨_, rfl, selects_R 0x8 x y 0x5⟩
theorem shr (x : Reg) (y : Reg) : Statement (.shr x y) := ⟨_, rfl, selects_R 0x8 x y 0x6⟩
theorem subn (x : Reg) (y : Reg) : Statement (.subn x y) := ⟨_, rfl, selects_R 0x8 x y 0x7⟩
theorem shl (x : Reg) (y : Reg) : Statement (.shl x y) := ⟨_, rfl, selects_R 0x8 x y 0xE⟩
theorem sneVxVy (x : Reg) (y : Reg) : Statement (.sneVxVy x y) := ⟨_, rfl, selects_R 0x9 x y 0x0⟩
theorem ldINnn (nnn : Addr12) : Statement (.ldINnn nnn) := ⟨_, rfl, selects_A 0xA nnn⟩
theorem jpV0 (nnn : Addr12) : Statement (.jpV0 nnn) := ⟨_, rfl, selects_A 0xB nnn⟩
theorem rnd (x : Reg) (kk : Byte) : Statement (.rnd x kk) := ⟨_, rfl, selects_I 0xC x kk⟩
theorem drw (x : Reg) (y : Reg) (n : Nibble) : Statement (.drw x y n) := ⟨_, rfl, selects_D 0xD x y n⟩
theorem skp (x : Reg) : Statement (.skp x) := ⟨_, rfl, selects_X 0xE x 0x9E⟩
theorem sknp (x : Reg) : Statement (.sknp x) := ⟨_, rfl, selects_X 0xE x 0xA1⟩
theorem ldVxDt (x : Reg) : Statement (.ldVxDt x) := ⟨_, rfl, selects_X 0xF x 0x07⟩
theorem ldVxK (x : Reg) : Statement (.ldVxK x) := ⟨_, rfl, selects_X 0xF x 0x0A⟩
theorem ldDtVx (x : Reg) : Statement (.ldDtVx x) := ⟨_, rfl, selects_X 0xF x 0x15⟩
theorem ldStVx (x : Reg) : Statement (.ldStVx x) := ⟨_, rfl, selects_X 0xF x 0x18⟩
theorem addIVx (x : Reg) : Statement (.addIVx x) := ⟨_, rfl, selects_X 0xF x 0x1E⟩
theorem ldFVx (x : Reg) : Statement (.ldFVx x) := ⟨_, rfl, selects_X 0xF x 0x29⟩
theorem ldBVx (x : Reg) : Statement (.ldBVx x) := ⟨_, rfl, selects_X 0xF x 0x33⟩
theorem ldMiVx (x : Reg) : Statement (.ldMiVx x) := ⟨_, rfl, selects_X 0xF x 0x55⟩
theorem ldVxMi (x : Reg) : Statement (.ldVxMi x) := ⟨_, rfl, selects_X 0xF x 0x65⟩

end Sys2Proof.Laws.EncodedRow
end

