-- ==== Sys2Proof/Laws/Step.lean ====
section
/-! SUPPORT. Everything an instruction tick and the other events can do, and how "unchanged except" composes. -/

namespace Sys2Proof.Machine

theorem State.halted_of_none {s : State} (h : s.fault = none) : s.halted = false := by simp [State.halted, h]

theorem State.halted_of_ne_none {s : State} (h : s.fault ≠ none) : s.halted = true := by
  cases hf : s.fault with
  | none => exact absurd hf h
  | some f => simp [State.halted, hf]

/-- An instruction tick of a halted core changes nothing (R258, R263). -/
theorem instrTick_halted {s : State} (h : s.fault ≠ none) : instrTick s = .next s := by
  simp [instrTick, State.halted_of_ne_none h]

/-- An instruction tick of a suspended core changes nothing (R258, R264). -/
theorem instrTick_suspended {s : State} (h : s.wait ≠ .running) : instrTick s = .next s := by
  unfold instrTick
  rw [if_pos h, ite_self]

/-- What an instruction tick of an active core does: fetch, then decode, then execute (R253, R258). -/
theorem instrTick_active {s : State} (h : s.active) : instrTick s =
    match s.fetch with
    | .error f => .next (s.raise f)
    | .ok (b0, b1) => s.execDecoded (decodeBytes b0 b1) := by
  have hh := State.halted_of_none h.1
  have hw : ¬ s.wait ≠ .running := fun hw => hw h.2
  exact (if_neg (by simp [hh])).trans (if_neg hw)

/-- Everything an instruction tick can do (R253, R258). -/
theorem instrTick_cases (s : State) :
    (¬ s.active ∧ instrTick s = .next s) ∨
    (s.active ∧ 4094 < s.pc.toNat ∧ instrTick s = .next (s.raise (.fetchOutOfRange s.pc))) ∨
    (s.active ∧ s.pc.toNat ≤ 4094 ∧
      instrTick s = s.execDecoded (decodeBytes (s.byteAt s.pc.toNat) (s.byteAt (s.pc.toNat + 1)))) := by
  by_cases hf : s.fault = none
  · by_cases hw : s.wait = .running
    · have ha : s.active := ⟨hf, hw⟩
      by_cases hp : s.pc.toNat ≤ 4094
      · exact .inr (.inr ⟨ha, hp, by rw [instrTick_active ha, s.fetch_ok hp]⟩)
      · exact .inr (.inl ⟨ha, by omega, by rw [instrTick_active ha, s.fetch_out (by omega)]⟩)
    · exact .inl ⟨fun ha => hw ha.2, instrTick_suspended hw⟩
  · exact .inl ⟨fun ha => hf ha.1, instrTick_halted hf⟩

@[simp] theorem State.execDecoded_instr (s : State) (i : Instr) : s.execDecoded (.instr i) = exec i s := rfl

theorem State.unlessHalted_running {s : State} (h : s.fault = none) (t : State) : s.unlessHalted t = t := by
  simp [State.unlessHalted, State.halted_of_none h]

theorem State.unlessHalted_halted {s : State} (h : s.fault ≠ none) (t : State) : s.unlessHalted t = s := by
  simp [State.unlessHalted, State.halted_of_ne_none h]

/-- A safe run starts without a fault. -/
theorem SafeRun.fault_none {es : List Event} {s : State} (h : SafeRun es s) : s.fault = none := by
  cases es with
  | nil => exact h
  | cons e es => exact h.1

/-- A run is safe exactly when every beginning of it, the empty and the whole one among them, goes through and ends
without a fault (R250). -/
theorem SafeRun.iff_beginnings (es : List Event) (s : State) :
    SafeRun es s ↔ ∀ k, ∃ t, handleAll (es.take k) s = .next t ∧ t.fault = none := by
  induction es generalizing s with
  | nil => simp [SafeRun, handleAll]
  | cons e es ih =>
    constructor
    · rintro ⟨h0, u, hu, h⟩ k
      cases k with
      | zero => exact ⟨s, rfl, h0⟩
      | succ k =>
        obtain ⟨t, ht, hf⟩ := (ih u).mp h k
        exact ⟨t, by simp only [List.take_succ_cons, handleAll, hu, ht], hf⟩
    · intro h
      obtain ⟨t0, h0, hf0⟩ := h 0
      obtain rfl : s = t0 := Host.Outcome.next.inj h0
      obtain ⟨t1, h1, -⟩ := h 1
      cases hu : handle e s with
      | next u =>
        refine ⟨hf0, u, hu, (ih u).mpr fun k => ?_⟩
        obtain ⟨t, ht, hf⟩ := h (k + 1)
        simp only [List.take_succ_cons, handleAll, hu] at ht
        exact ⟨t, ht, hf⟩
      | fault f => simp [handleAll, hu] at h1
      | refused r => simp [handleAll, hu] at h1

theorem Part.same_refl (p : Part) (s : State) : p.same s s := by
  cases p <;> first | rfl | exact fun _ => rfl

theorem Part.same_trans {p : Part} {s t u : State} (h1 : p.same s t) (h2 : p.same t u) : p.same s u := by
  cases p <;> first | exact Eq.trans h2 h1 | exact fun a => (h2 a).trans (h1 a)

theorem UnchangedExcept.refl (ps : List Part) (s : State) : UnchangedExcept ps s s := fun p _ => p.same_refl s

theorem UnchangedExcept.trans {ps : List Part} {s t u : State} (h1 : UnchangedExcept ps s t)
    (h2 : UnchangedExcept ps t u) : UnchangedExcept ps s u := fun p hp => Part.same_trans (h1 p hp) (h2 p hp)

theorem UnchangedExcept.mono {ps qs : List Part} {s t : State} (h : UnchangedExcept ps s t) (hs : ps ⊆ qs) :
    UnchangedExcept qs s t := fun p hp => h p fun hm => hp (hs hm)

/-- Taking a fault changes FAULT alone (R250, R254). -/
theorem State.raise_frame (s : State) (f : FaultRecord) : UnchangedExcept [.fault] s (s.raise f) := by
  intro p hp
  cases p <;> first | rfl | exact fun _ => rfl | exact absurd (by simp) hp

end Sys2Proof.Machine
end

