-- ==== Sys2Proof/Tests/Slice0.lean ====
section
/-! SUPPORT. Small tests: the well-formedness check, a word of every instruction written out from the spec's encoding
of it, one step each from the spec's vectors (spec/95_test_vectors.md, whose ids the comments name), and for every
statement with hypotheses a witness that meets them. -/

namespace Sys2Proof.Tests

open Sys2Proof.Machine

/-- Reset, with registers set and a word placed where the next step fetches. -/
def boot (w : Nat) (regs : List (Reg × Byte)) : State :=
  (regs.foldl (fun s p => s.setReg p.1 p.2) State.reset).withFetchWord 16 w

/-- A program one byte too long (R294). -/
def bigRom : List Byte := List.replicate 0xE01 0

theorem bigRom_length : bigRom.length = 0xE01 := List.length_replicate ..

/-- What one step leaves, looked at through f. -/
def after {α : Type} (s : State) (f : State → α) : Option α :=
  match step s with
  | .next t => some (f t)
  | .fault _ => none
  | .refused _ => none

/-- What a list of events leaves, looked at through f. -/
def afterEvents {α : Type} (es : List Event) (s : State) (f : State → α) : Option α :=
  match handleAll es s with
  | .next t => some (f t)
  | .fault _ => none
  | .refused _ => none

/-- Reset with bytes in memory. -/
def withBytes (a : Nat) (bs : List Byte) (s : State) : State :=
  { s with mem := Memory.writeList s.font s.mem a bs }

/-- The lit cells of some rows. -/
def litCells (fb : Framebuffer) (rows : List (Fin 32)) : List (Nat × Nat) :=
  rows.flatMap fun r => (List.finRange 64).filterMap fun c => if fb.cell r c then some (r.val, c.val) else none

/-! ### Well-formed (R23, R298(b)): VF is not the destination of an instruction that also writes VF as its flag -/

theorem test_ill_formed_addVxVy : (Instr.addVxVy 0xF 1).wellFormed = false := by decide
theorem test_ill_formed_sub : (Instr.sub 0xF 1).wellFormed = false := by decide
theorem test_ill_formed_shr : (Instr.shr 0xF 1).wellFormed = false := by decide
theorem test_ill_formed_subn : (Instr.subn 0xF 1).wellFormed = false := by decide
theorem test_ill_formed_shl : (Instr.shl 0xF 1).wellFormed = false := by decide
theorem test_well_formed_flag_pair : (Instr.addVxVy 0xE 0xF).wellFormed = true := by decide
theorem test_well_formed_vf_as_plain_destination : (Instr.or 0xF 1).wellFormed = true := by decide

/-! ### One word of every instruction, its fields from the format R92 gives it -/

theorem test_decode_cls : decodeBytes 0b00000000 0b11100000 = .instr .cls := by decide
theorem test_decode_ret : decodeBytes 0b00000000 0b11101110 = .instr .ret := by decide
theorem test_decode_jp : decodeBytes 0b00011010 0b10111100 = .instr (.jp 0xABC) := by decide
theorem test_decode_call : decodeBytes 0b00101010 0b10111100 = .instr (.call 0xABC) := by decide
theorem test_decode_se_vx_kk : decodeBytes 0b00111010 0b01000010 = .instr (.seVxKk 0xA 0x42) := by decide
theorem test_decode_sne_vx_kk : decodeBytes 0b01001010 0b01000010 = .instr (.sneVxKk 0xA 0x42) := by decide
theorem test_decode_se_vx_vy : decodeBytes 0b01010001 0b00100000 = .instr (.seVxVy 1 2) := by decide
theorem test_decode_ld_vx_kk : decodeBytes 0b01101010 0b00111100 = .instr (.ldVxKk 0xA 0x3C) := by decide
theorem test_decode_add_vx_kk : decodeBytes 0b01111010 0b11111111 = .instr (.addVxKk 0xA 0xFF) := by decide
theorem test_decode_ld_vx_vy : decodeBytes 0b10000001 0b00100000 = .instr (.ldVxVy 1 2) := by decide
theorem test_decode_or : decodeBytes 0b10000001 0b00100001 = .instr (.or 1 2) := by decide
theorem test_decode_and : decodeBytes 0b10000001 0b00100010 = .instr (.and 1 2) := by decide
theorem test_decode_xor : decodeBytes 0b10000001 0b00100011 = .instr (.xor 1 2) := by decide
theorem test_decode_add_vx_vy : decodeBytes 0b10000001 0b00100100 = .instr (.addVxVy 1 2) := by decide
theorem test_decode_sub : decodeBytes 0b10000001 0b00100101 = .instr (.sub 1 2) := by decide
theorem test_decode_shr : decodeBytes 0b10000001 0b00100110 = .instr (.shr 1 2) := by decide
theorem test_decode_subn : decodeBytes 0b10000001 0b00100111 = .instr (.subn 1 2) := by decide
theorem test_decode_shl : decodeBytes 0b10000001 0b00101110 = .instr (.shl 1 2) := by decide
theorem test_decode_sne_vx_vy : decodeBytes 0b10010001 0b00100000 = .instr (.sneVxVy 1 2) := by decide
theorem test_decode_ld_i_nnn : decodeBytes 0b10101010 0b10111100 = .instr (.ldINnn 0xABC) := by decide
theorem test_decode_jp_v0 : decodeBytes 0b10111010 0b10111100 = .instr (.jpV0 0xABC) := by decide
theorem test_decode_rnd : decodeBytes 0b11000011 0b00001111 = .instr (.rnd 3 0x0F) := by decide
theorem test_decode_drw : decodeBytes 0b11010001 0b00100011 = .instr (.drw 1 2 3) := by decide
theorem test_decode_skp : decodeBytes 0b11100101 0b10011110 = .instr (.skp 5) := by decide
theorem test_decode_sknp : decodeBytes 0b11100101 0b10100001 = .instr (.sknp 5) := by decide
theorem test_decode_ld_vx_dt : decodeBytes 0b11110101 0b00000111 = .instr (.ldVxDt 5) := by decide
theorem test_decode_ld_vx_k : decodeBytes 0b11110101 0b00001010 = .instr (.ldVxK 5) := by decide
theorem test_decode_ld_dt_vx : decodeBytes 0b11110101 0b00010101 = .instr (.ldDtVx 5) := by decide
theorem test_decode_ld_st_vx : decodeBytes 0b11110101 0b00011000 = .instr (.ldStVx 5) := by decide
theorem test_decode_add_i_vx : decodeBytes 0b11110101 0b00011110 = .instr (.addIVx 5) := by decide
theorem test_decode_ld_f_vx : decodeBytes 0b11110101 0b00101001 = .instr (.ldFVx 5) := by decide
theorem test_decode_ld_b_vx : decodeBytes 0b11110101 0b00110011 = .instr (.ldBVx 5) := by decide
theorem test_decode_ld_mi_vx : decodeBytes 0b11110101 0b01010101 = .instr (.ldMiVx 5) := by decide
theorem test_decode_ld_vx_mi : decodeBytes 0b11110101 0b01100101 = .instr (.ldVxMi 5) := by decide

/-! Unsupported words, V-U2 to V-U10 (R97, R98). -/

theorem test_unsupported_0nnn : decodeBytes 0x01 0x23 = .unsupported 0 1 2 3 := by decide
theorem test_unsupported_near_00E0 : decodeBytes 0x00 0xE1 = .unsupported 0 0 0xE 1 := by decide
theorem test_unsupported_5xy1 : decodeBytes 0x51 0x21 = .unsupported 5 1 2 1 := by decide
theorem test_unsupported_9xy1 : decodeBytes 0x91 0x21 = .unsupported 9 1 2 1 := by decide
theorem test_unsupported_8xy8 : decodeBytes 0x81 0x28 = .unsupported 8 1 2 8 := by decide
theorem test_unsupported_Ex9F : decodeBytes 0xE1 0x9F = .unsupported 0xE 1 9 0xF := by decide
theorem test_unsupported_Fx75 : decodeBytes 0xF1 0x75 = .unsupported 0xF 1 7 5 := by decide

/-! ### One step each -/

/-- V-D1: VF is kept -/
theorem test_cls_clears :
    after ({ boot 0x00E0 [(0xF, 1)] with fb := Vector.replicate 32 0xFFFFFFFFFFFFFFFF })
      (fun t => (decide (t.fb = Framebuffer.dark), t.reg VF, t.pc)) =
      some (true, 1, 0x202) := by decide
/-- V-C5 -/
theorem test_ret_pops :
    after ({ boot 0x00EE [] with sp := 1, stack := State.reset.stack.set 0 0x2A4 })
      (fun t => (t.pc, t.sp, t.stack[0])) =
      some (0x2A6, 0, 0x2A4) := by decide
/-- V-C8 -/
theorem test_ret_underflow :
    after (boot 0x00EE []) (fun t => (t.fault, t.pc, t.sp)) = some (some .stackUnderflow, 0x200, 0) := by decide
/-- V-C1 -/
theorem test_jp : after (boot 0x1ABC []) (fun t => t.pc) = some 0xABC := by decide
/-- V-C3: no fault at this step -/
theorem test_jp_last_address : after (boot 0x1FFF []) (fun t => (t.pc, t.fault)) = some (0xFFF, none) := by decide
/-- V-C6: the 15th nested call succeeds -/
theorem test_call_pushes_own_address :
    after ({ boot 0x2300 [] with sp := 14 }) (fun t => (t.stack[14], t.sp, t.pc)) =
      some (0x200, 15, 0x300) := by decide
/-- V-C7 -/
theorem test_call_overflow :
    after ({ boot 0x2300 [] with sp := 15 }) (fun t => (t.fault, t.pc, t.sp, t.stack[15])) =
      some (some .stackOverflow, 0x200, 15, 0) := by decide
/-- V-C9 -/
theorem test_se_kk_skips : after (boot 0x3A42 [(0xA, 0x42)]) (fun t => t.pc) = some 0x204 := by decide
/-- V-C10 -/
theorem test_se_kk_goes_on : after (boot 0x3A42 [(0xA, 0x43)]) (fun t => t.pc) = some 0x202 := by decide
/-- V-C11 -/
theorem test_sne_kk_goes_on : after (boot 0x4A42 [(0xA, 0x42)]) (fun t => t.pc) = some 0x202 := by decide
/-- V-C12 -/
theorem test_sne_kk_skips : after (boot 0x4A42 [(0xA, 0x43)]) (fun t => t.pc) = some 0x204 := by decide
/-- V-C13 -/
theorem test_se_vy_skips : after (boot 0x5120 [(1, 7), (2, 7)]) (fun t => t.pc) = some 0x204 := by decide
/-- V-C14 -/
theorem test_se_vy_goes_on : after (boot 0x5120 [(1, 7), (2, 8)]) (fun t => t.pc) = some 0x202 := by decide
/-- Scenario B -/
theorem test_ld_kk : after (boot 0x6A3C []) (fun t => (t.reg 0xA, t.pc)) = some (0x3C, 0x202) := by decide
/-- V-A2: VF as an ordinary destination -/
theorem test_ld_kk_vf : after (boot 0x6F01 []) (fun t => t.reg VF) = some 1 := by decide
/-- V-A3: no carry flag -/
theorem test_add_kk_wraps :
    after (boot 0x7101 [(1, 0xFF), (0xF, 7)]) (fun t => (t.reg 1, t.reg VF, t.pc)) = some (0, 7, 0x202) := by decide
/-- Scenario C -/
theorem test_add_kk_scenario : after (boot 0x7AFF [(0xA, 0x3C)]) (fun t => t.reg 0xA) = some 0x3B := by decide
/-- V-A7 -/
theorem test_ld_vy :
    after (boot 0x8120 [(1, 1), (2, 0xAA), (0xF, 9)]) (fun t => (t.reg 1, t.reg 2, t.reg VF)) =
      some (0xAA, 0xAA, 9) := by decide
/-- V-A10: VF is kept -/
theorem test_or :
    after (boot 0x8121 [(1, 0xF0), (2, 0x0F), (0xF, 9)]) (fun t => (t.reg 1, t.reg VF)) = some (0xFF, 9) := by decide
/-- V-A11 -/
theorem test_and :
    after (boot 0x8122 [(1, 0xF0), (2, 0x3C), (0xF, 9)]) (fun t => (t.reg 1, t.reg VF)) = some (0x30, 9) := by decide
/-- V-A12 -/
theorem test_xor :
    after (boot 0x8123 [(1, 0xF0), (2, 0x3C), (0xF, 9)]) (fun t => (t.reg 1, t.reg VF)) = some (0xCC, 9) := by decide
/-- V-A17 -/
theorem test_add_carry :
    after (boot 0x8124 [(1, 0xFF), (2, 0xFF)]) (fun t => (t.reg 1, t.reg VF)) = some (0xFE, 1) := by decide
/-- V-A21: the old VF is added -/
theorem test_add_source_vf :
    after (boot 0x81F4 [(1, 0xFF), (0xF, 2)]) (fun t => (t.reg 1, t.reg VF)) = some (1, 1) := by decide
/-- V-A24 -/
theorem test_sub_borrow :
    after (boot 0x8125 [(1, 0x12), (2, 0x34), (0xF, 9)]) (fun t => (t.reg 1, t.reg VF)) = some (0xDE, 0) := by decide
/-- V-A25: equal operands are no borrow -/
theorem test_sub_equal :
    after (boot 0x8125 [(1, 0x55), (2, 0x55)]) (fun t => (t.reg 1, t.reg VF)) = some (0, 1) := by decide
/-- V-A30: y is ignored -/
theorem test_shr :
    after (boot 0x8126 [(1, 5), (2, 0xAA)]) (fun t => (t.reg 1, t.reg VF, t.reg 2)) = some (2, 1, 0xAA) := by decide
/-- V-A35 -/
theorem test_shr_zero :
    after (boot 0x8126 [(1, 0x80), (0xF, 9)]) (fun t => (t.reg 1, t.reg VF)) = some (0x40, 0) := by decide
/-- V-A38 -/
theorem test_subn_no_borrow :
    after (boot 0x8127 [(1, 0x12), (2, 0x34)]) (fun t => (t.reg 1, t.reg VF)) = some (0x22, 1) := by decide
/-- V-A39 -/
theorem test_subn_borrow :
    after (boot 0x8127 [(1, 0x34), (2, 0x12), (0xF, 9)]) (fun t => (t.reg 1, t.reg VF)) = some (0xDE, 0) := by decide
/-- V-A43: y is ignored -/
theorem test_shl :
    after (boot 0x812E [(1, 0x81), (2, 0xAA)]) (fun t => (t.reg 1, t.reg VF, t.reg 2)) =
      some (2, 1, 0xAA) := by decide
/-- V-A48 -/
theorem test_shl_no_bit :
    after (boot 0x812E [(1, 0x7F), (0xF, 9)]) (fun t => (t.reg 1, t.reg VF)) = some (0xFE, 0) := by decide
/-- V-A22: VF is left with a free byte -/
theorem test_flag_clash_free :
    after (boot 0x8F14 [(1, 1), (0xF, 2)]) (fun t => (t.reg VF, t.reg 1, t.pc, t.draws)) =
      some (Config.draw8 0, 1, 0x202, 1) := rfl
/-- V-C16 -/
theorem test_sne_vy_goes_on : after (boot 0x9120 [(1, 7), (2, 7)]) (fun t => t.pc) = some 0x202 := by decide
/-- V-C17 -/
theorem test_sne_vy_skips : after (boot 0x9120 [(1, 7), (2, 8)]) (fun t => t.pc) = some 0x204 := by decide
/-- V-M1 -/
theorem test_ld_i : after (boot 0xA123 []) (fun t => (t.i, t.pc)) = some (0x123, 0x202) := by decide
/-- V-C20: not reduced to 12 bits -/
theorem test_jp_v0 : after (boot 0xBFFF [(0, 0xFF)]) (fun t => (t.pc, t.fault)) = some (0x10FE, none) := by decide
/-- V-A50, for whatever byte is drawn -/
theorem test_rnd_mask :
    after (boot 0xC1F0 []) (fun t => (t.reg 1, t.draws)) = some (Config.draw8 0 &&& 0xF0, 1) := rfl
/-- V-K1 -/
theorem test_skp_down :
    after ({ boot 0xE19E [(1, 5)] with keys := State.reset.keys.set 5 true }) (fun t => t.pc) =
      some 0x204 := by decide
/-- V-K6: not reduced to key 0 -/
theorem test_skp_bad_key :
    after ({ boot 0xE19E [(1, 0x10)] with keys := State.reset.keys.set 0 true }) (fun t => (t.fault, t.pc)) =
      some (some (.badKeyIndex 0x10), 0x200) := by decide
/-- V-K4 -/
theorem test_sknp_other_key_down :
    after ({ boot 0xE1A1 [(1, 5)] with keys := State.reset.keys.set 4 true }) (fun t => t.pc) =
      some 0x204 := by decide
/-- V-K7 -/
theorem test_sknp_bad_key :
    after (boot 0xE1A1 [(1, 0xFF)]) (fun t => (t.fault, t.pc)) = some (some (.badKeyIndex 0xFF), 0x200) := by decide
/-- V-K8 -/
theorem test_ld_vx_dt :
    after ({ boot 0xF107 [(1, 9)] with dt := 0x2A }) (fun t => (t.reg 1, t.dt)) = some (0x2A, 0x2A) := by decide
/-- V-K14: a held key is not consulted -/
theorem test_ld_vx_k_suspends :
    after ({ boot 0xF30A [] with keys := State.reset.keys.set 7 true }) (fun t => (t.wait, t.reg 3, t.pc)) =
      some (.awaitingKey 3, 0, 0x202) := by decide
/-- V-K9 -/
theorem test_ld_dt_vx : after (boot 0xF115 [(1, 0x3C)]) (fun t => (t.dt, t.st)) = some (0x3C, 0) := by decide
/-- V-K10: BUZZ is not touched -/
theorem test_ld_st_vx :
    after (boot 0xF118 [(1, 0x3C)]) (fun t => (t.st, t.dt, t.buzz)) = some (0x3C, 0, false) := by decide
/-- V-M5: modulo 65536 -/
theorem test_add_i_wraps :
    after ({ boot 0xF11E [(1, 1), (0xF, 7)] with i := 0xFFFF }) (fun t => (t.i, t.reg VF, t.pc)) =
      some (0, 7, 0x202) := by decide
/-- V-M4: I may exceed the address range -/
theorem test_add_i_past_space :
    after ({ boot 0xF11E [(1, 1), (0xF, 7)] with i := 0xFFF }) (fun t => (t.i, t.reg VF)) =
      some (0x1000, 7) := by decide
/-- V-M10 -/
theorem test_ld_f : after (boot 0xF129 [(1, 0x0F)]) (fun t => (t.i, t.pc)) = some (0x04B, 0x202) := by decide
/-- V-M11 -/
theorem test_ld_f_bad_digit :
    after ({ boot 0xF129 [(1, 0x10)] with i := 0x123 }) (fun t => (t.fault, t.i, t.pc)) =
      some (some (.badFontDigit 0x10), 0x123, 0x200) := by decide
/-- V-M20 -/
theorem test_bcd_last_bytes :
    after ({ boot 0xF133 [(1, 123)] with i := 0xFFD }) (fun t => (t.bytesFrom 0xFFD 3, t.i, t.fault)) =
      some ([1, 2, 3], 0xFFD, none) := by decide
/-- V-M21: no partial write -/
theorem test_bcd_out_of_range :
    after (withBytes 0xFFE [0xAA, 0xBB] { boot 0xF133 [(1, 123)] with i := 0xFFE })
      (fun t => (t.fault, t.bytesFrom 0xFFE 2, t.pc)) =
      some (some (.dataOutOfRange 0x1000), [0xAA, 0xBB], 0x200) := by decide
/-- V-M23 -/
theorem test_store_block :
    after (withBytes 0x304 [0x99] { boot 0xF355 [(0, 0x10), (1, 0x11), (2, 0x12), (3, 0x13), (4, 0x14)] with i := 0x300 })
      (fun t => (t.bytesFrom 0x300 5, t.i)) =
      some ([0x10, 0x11, 0x12, 0x13, 0x99], 0x300) := by decide
/-- V-M28 -/
theorem test_store_last_byte :
    after ({ boot 0xF055 [(0, 0x5A)] with i := 0xFFF }) (fun t => (t.byteAt 0xFFF, t.fault)) =
      some (0x5A, none) := by decide
/-- V-M30: V4 and I kept -/
theorem test_load_block :
    after (withBytes 0x300 [0xA0, 0xA1, 0xA2, 0xA3, 0xA4] { boot 0xF365 [(4, 0x77)] with i := 0x300 })
      (fun t => ((t.v.toList.take 5), t.i)) =
      some ([0xA0, 0xA1, 0xA2, 0xA3, 0x77], 0x300) := by decide
/-- V-M32 -/
theorem test_load_block_no_partial :
    after (withBytes 0xFFF [0x5A] { boot 0xF165 [(0, 1), (1, 2)] with i := 0xFFF })
      (fun t => (t.fault, t.reg 0, t.reg 1)) =
      some (some (.dataOutOfRange 0x1000), 1, 2) := by decide
/-- V-D9 -/
theorem test_drw_wraps_both_edges :
    after (withBytes 0x300 [0xFF, 0x81] { boot 0xD122 [(1, 63), (2, 31), (0xF, 9)] with i := 0x300 })
      (fun t => (litCells t.fb [31, 0], t.reg VF)) =
      some ([(31, 0), (31, 1), (31, 2), (31, 3), (31, 4), (31, 5), (31, 6), (31, 63), (0, 6), (0, 63)], 0) := by decide +kernel
/-- V-D4: one pixel erased, one set -/
theorem test_drw_collides :
    after (withBytes 0x300 [0xC0] { boot 0xD121 [] with i := 0x300, fb := Framebuffer.dark.setCell 0 0 true })
      (fun t => (litCells t.fb [0], t.reg VF)) =
      some ([(0, 1)], 1) := by decide +kernel
/-- V-D21: n = 0 is checked too -/
theorem test_drw_empty_past_end :
    after ({ boot 0xD120 [(0xF, 1)] with i := 0x1001 }) (fun t => (t.fault, t.reg VF, t.pc)) =
      some (some (.dataOutOfRange 0x1001), 1, 0x200) := by decide

/-! ### The step and the events -/

/-- R98, program P6: zeroed memory is no instruction -/
theorem test_reset_runs_into_zeros :
    after (State.reset) (fun t => (t.fault, t.pc)) =
      some (some (.unsupportedInstruction 0 0 0 0), 0x200) := by decide
/-- V-C22: both bytes in range -/
theorem test_fetch_last_word :
    after (withBytes 0xFFE [0x60, 0x00] { State.reset with pc := 0xFFE }) (fun t => (t.pc, t.fault)) =
      some (0x1000, none) := by decide
/-- V-C23 -/
theorem test_fetch_out_of_range :
    after ({ State.reset with pc := 0xFFF }) (fun t => (t.fault, t.pc)) =
      some (some (.fetchOutOfRange 0xFFF), 0xFFF) := by decide
/-- V-K17: the first press resolves, the second only enters KEYS -/
theorem test_press_ends_wait :
    afterEvents [.press 0xF, .press 1] { State.reset with wait := .awaitingKey 3 }
      (fun t => (t.reg 3, t.wait, t.keyDown 0xF, t.keyDown 1)) =
      some (0xF, .running, true, true) := by decide
/-- V-K19 -/
theorem test_press_release_idempotent :
    afterEvents [.press 3, .press 3, .release 3, .release 3] State.reset (fun t => decide (t = State.reset)) =
      some true := by decide +kernel
/-- V-K12 after three ticks -/
theorem test_tone_three_ticks :
    afterEvents [.timerTick, .timerTick, .timerTick] { State.reset with st := 3 } (fun t => (t.st, t.buzz)) =
      some (0, true) := by decide
/-- V-K12 after four ticks -/
theorem test_tone_stops :
    afterEvents [.timerTick, .timerTick, .timerTick, .timerTick] { State.reset with st := 3 }
      (fun t => (t.st, t.buzz)) =
      some (0, false) := by decide
/-- V-K11: (0, 0), then (5, 2) -/
theorem test_timers_stop_at_zero :
    afterEvents [.timerTick] { State.reset with dt := 5, st := 2 } (fun t => (t.dt, t.st, t.buzz)) =
      some (4, 1, true) := by decide
/-- V-H2 -/
theorem test_load_recovers :
    afterEvents [.instrTick, .load [0x60, 0x01], .instrTick] State.reset (fun t => (t.fault, t.reg 0, t.pc)) =
      some (none, 1, 0x202) := by decide
/-- R294: one byte too many. -/
theorem test_load_too_large : handle (.load bigRom) State.reset = .refused (.loadTooLarge 0xE01) := by
  rcases State.reset.load_cases bigRom with ⟨h, _⟩ | ⟨_, h⟩
  · rw [bigRom_length] at h
    exact absurd h (by decide)
  · exact h.trans (by rw [bigRom_length])

/-- R262, U13: a snapshot of FB as it stands, none from a halted core. -/
theorem test_snapshot : snapshotOf .renderTick State.reset = some Framebuffer.dark ∧
    snapshotOf .renderTick (State.reset.raise .stackUnderflow) = none := ⟨rfl, rfl⟩

/-- The tone output follows BUZZ (R230) and is not defined when halted (U13). -/
theorem test_tone : State.reset.toneOutput = some false ∧ (State.reset.raise .stackUnderflow).toneOutput = none :=
  ⟨rfl, rfl⟩

/-- A sequence that loads and then runs an instruction is a safe run. -/
theorem test_safe_run : SafeRun [.load [0x60, 0x01], .instrTick] State.reset := ⟨rfl, _, rfl, rfl, _, rfl, rfl⟩

/-- A run whose first tick faults is not safe, although the load after it clears FAULT (R250: FAULT is none
throughout). -/
theorem test_recovered_run_is_not_safe : ¬ SafeRun [.instrTick, .load [0x60, 0x01], .instrTick] State.reset := by
  rintro ⟨-, t, ht, h⟩
  obtain rfl := Host.Outcome.next.inj ht
  exact absurd h.fault_none (by decide)

/-- A step takes one event from the sequence; an empty sequence is an instruction tick. -/
theorem test_event_order : after { State.reset with events := [.press 2, .release 2] } (fun t =>
    (t.keyDown 2, decide (t.events = [.release 2]))) = some (true, true) := by decide

/-! ### Witnesses: for every statement with hypotheses, states and operands that meet them -/

theorem witness_EncodeOfDecode : decode 0xD123 = .instr (.drw 1 2 3) := by decide

theorem witness_StepRunsDecodedInstruction :
    let s := withBytes 4094 [0x60, 0x01] { State.reset with pc := 4094 }
    s.active ∧ s.nextEvent = .instrTick ∧ s.pc.toNat ≤ 4094 ∧
      decodeBytes (s.byteAt s.pc.toNat) (s.byteAt (s.pc.toNat + 1)) = .instr (.ldVxKk 0 1) :=
  ⟨⟨rfl, rfl⟩, rfl, by decide, by decide⟩

theorem witness_StepRunsPlacedWord : decodeTableWord 16 0x00E0 = some .cls := by decide

theorem witness_FetchAndDecodeFaults_fetch :
    let s := { State.reset with pc := 4095 }
    s.active ∧ s.nextEvent = .instrTick ∧ 4094 < s.pc.toNat := ⟨⟨rfl, rfl⟩, rfl, by decide⟩

theorem witness_FetchAndDecodeFaults_decode :
    let s := { State.reset with pc := 4094 }
    s.active ∧ s.nextEvent = .instrTick ∧ s.pc.toNat ≤ 4094 ∧
      ∀ i, decodeBytes (s.byteAt s.pc.toNat) (s.byteAt (s.pc.toNat + 1)) ≠ .instr i := by
  refine ⟨⟨rfl, rfl⟩, rfl, by decide, fun i => ?_⟩
  rw [show decodeBytes _ _ = Decoded.unsupported 0 0 0 0 from rfl]
  exact Decoded.noConfusion

theorem witness_StepOnlyRefusesLargeRom : { State.reset with sp := 15 }.sp.toNat ≤ 15 := by decide

theorem witness_StepOnlyRefusesLargeRom_refused :
    let s := { State.reset with sp := 15, events := [.load bigRom] }
    s.sp.toNat ≤ 15 ∧ s.nextEvent = .load bigRom ∧ 0xE00 < bigRom.length :=
  ⟨by decide, rfl, by rw [bigRom_length]; decide⟩

theorem witness_reset_inv : State.reset.inv :=
  ⟨by decide, fun k h => absurd h (Nat.not_lt_zero k), by decide, by decide⟩

theorem witness_StepKeepsInv : State.reset.inv ∧ ∃ t, step State.reset = .next t := ⟨witness_reset_inv, _, rfl⟩

theorem witness_StepKeepsInv_call :
    let s := { boot 0x2300 [] with sp := 14 }
    s.inv ∧ ∃ t, step s = .next t := by
  refine ⟨⟨by decide, by decide, by decide, by decide⟩, _, rfl⟩

theorem witness_LoadRestartsCore_fits : bigRom.tail.length ≤ 0xE00 := by
  have h := List.length_tail (l := bigRom)
  have := bigRom_length
  omega

theorem witness_LoadRestartsCore_refused : 0xE00 < bigRom.length := by
  rw [bigRom_length]
  decide

theorem witness_FaultsArePrecise_fetch : ∃ t,
    let s := { State.reset with pc := 4095 }
    s.fault = none ∧ (∀ rom, s.nextEvent ≠ .load rom) ∧ step s = .next t ∧ t.fault ≠ none :=
  ⟨_, rfl, fun _ h => (by cases h), rfl, by decide⟩

theorem witness_FaultsArePrecise_instruction : ∃ t,
    (boot 0x00EE []).fault = none ∧ (∀ rom, (boot 0x00EE []).nextEvent ≠ .load rom) ∧
      step (boot 0x00EE []) = .next t ∧ t.fault ≠ none :=
  ⟨_, rfl, fun _ h => (by cases h), rfl, by decide⟩

theorem witness_HaltedIgnoresEvents :
    (State.reset.raise .stackUnderflow).fault ≠ none ∧
      ∀ e ∈ [Event.instrTick, .timerTick, .press 1, .release 1, .renderTick], ∀ rom, e ≠ .load rom := by
  refine ⟨by decide, fun e he rom h => ?_⟩
  subst h
  simp at he

theorem witness_OnlyPressEndsWait :
    let s := { State.reset with wait := .awaitingKey 3, st := 2 }
    s.fault = none ∧ s.wait = .awaitingKey 3 ∧
      ∀ e ∈ [Event.instrTick, .timerTick, .release 1, .renderTick], (∀ k, e ≠ .press k) ∧ ∀ rom, e ≠ .load rom := by
  refine ⟨rfl, rfl, fun e he => ⟨fun k h => ?_, fun rom h => ?_⟩⟩ <;> subst h <;> simp at he

theorem witness_PressEvent_running : State.reset.fault = none ∧ State.reset.wait = .running := ⟨rfl, rfl⟩

theorem witness_PressEvent_waiting :
    let s := { State.reset with wait := .awaitingKey 0xF }
    s.fault = none ∧ s.wait = .awaitingKey 0xF := ⟨rfl, rfl⟩

theorem witness_ReleaseEvent : { State.reset with wait := .awaitingKey 3 }.fault = none := rfl

theorem witness_TimerTickEvent : { State.reset with dt := 255, st := 0 }.fault = none := rfl

theorem witness_RenderTickOnlyObserves : State.reset.fault = none ∧
    (State.reset.raise .stackUnderflow).fault ≠ none := by decide

theorem witness_InstructionsWriteOnlyTheirParts : ∃ t, exec .cls State.reset = .next t := ⟨_, rfl⟩

theorem witness_InstructionsWriteOnlyTheirRegisters : ∃ t,
    exec (.addVxVy 1 2) State.reset = .next t ∧ mayWriteReg (.addVxVy 1 2) 2 = false := ⟨_, rfl, by decide⟩

theorem witness_InstructionsRaiseOnlyTheirFault : ∃ t, State.reset.fault = none ∧
    exec .ret State.reset = .next t ∧ t.fault = some .stackUnderflow := ⟨_, rfl, rfl, rfl⟩

theorem witness_SelfJumpEndsRun : (boot 0x1200 []).ended ∧
    ∀ e ∈ [Event.instrTick, .timerTick, .press 1, .release 1, .renderTick], ∀ rom, e ≠ .load rom := by
  refine ⟨⟨⟨rfl, rfl⟩, by decide, 0x200, by decide, by decide⟩, fun e he rom h => ?_⟩
  subst h
  simp at he

theorem witness_RetReturnsAfterCall_first : 0 < { State.reset with sp := 1 }.sp.toNat ∧
    { State.reset with sp := 1 }.sp.toNat ≤ 15 := by decide

theorem witness_RetReturnsAfterCall_last : 0 < { State.reset with sp := 15 }.sp.toNat ∧
    { State.reset with sp := 15 }.sp.toNat ≤ 15 := by decide

theorem witness_CallPushesItsAddress_first : State.reset.sp.toNat < 15 := by decide

theorem witness_CallPushesItsAddress_last : { State.reset with sp := 14 }.sp.toNat < 15 := by decide

theorem witness_StackFaults_overflow : { State.reset with sp := 15 }.sp.toNat = 15 := by decide

theorem witness_StackFaults_underflow : State.reset.sp.toNat = 0 := by decide

theorem witness_StackFaults_no_state : 15 < { State.reset with sp := 16 }.sp.toNat := by decide

theorem witness_ReturnUndoesCall :
    let s := { State.reset with sp := 14 }
    s.sp.toNat < 15 ∧ ∃ t, exec (.call 0x300) s = .next t ∧
      ∃ u : State, u.i = 7 ∧ u.sp = t.sp ∧ u.stack = t.stack :=
  ⟨by decide, _, rfl, { State.reset with
    i := 7, sp := 15, stack := State.reset.stack.set 14 0x200 }, rfl, by decide, by decide⟩

theorem witness_AddVxVySetsCarry : (0xE : Reg) ≠ VF := by decide

theorem witness_SubtractSetsNoBorrow : (0xE : Reg) ≠ VF := by decide

theorem witness_ShiftsMoveVxByOne : (0 : Reg) ≠ VF := by decide

theorem witness_FlagClashLeavesFreeByte : ∀ i ∈ [Instr.addVxVy VF 1, .sub VF 1, .shr VF 1, .subn VF 1, .shl VF VF],
    ∃ y, i ∈ [Instr.addVxVy VF y, .sub VF y, .shr VF y, .subn VF y, .shl VF y] := by
  simp

theorem witness_RndStaysUnderMask : (0x00 : Byte) = 0 := rfl

theorem witness_LdFVxPointsAtGlyph_digit : ((State.reset.setReg 1 0xF).reg 1).toNat ≤ 15 := by decide

theorem witness_LdFVxPointsAtGlyph_no_digit : 15 < ((State.reset.setReg 1 0x10).reg 1).toNat := by decide

theorem witness_LdBVxStoresDigits : { State.reset with i := 4093 }.i.toNat + 3 ≤ 4096 := by decide

theorem witness_LdMiVxStoresBlock : { State.reset with i := 4095 }.i.toNat + (0 : Reg).toNat + 1 ≤ 4096 := by decide

theorem witness_LdVxMiLoadsBlock : { State.reset with i := 4080 }.i.toNat + (0xF : Reg).toNat + 1 ≤ 4096 := by decide

theorem witness_DataOutOfRangeFaults_drw : 4096 < { State.reset with i := 4096 }.i.toNat + (1 : Nibble).toNat ∧
    4096 < { State.reset with i := 4097 }.i.toNat + (0 : Nibble).toNat := by decide

theorem witness_DataOutOfRangeFaults_bcd : 4096 < { State.reset with i := 4094 }.i.toNat + 3 := by decide

theorem witness_DataOutOfRangeFaults_block : 4096 < { State.reset with i := 4096 }.i.toNat + (0 : Reg).toNat + 1 := by
  decide

theorem witness_StoreThenLoadRestoresRegisters :
    { State.reset with i := 4080 }.i.toNat + (0xF : Reg).toNat + 1 ≤ 4096 := by decide

theorem witness_StoreIsSeenByNextFetch : ∃ t : State,
    let s := (({ State.reset with i := 0x202 }).setReg 0 0x12).setReg 1 0x02
    (0 : Reg).toNat < (1 : Reg).toNat ∧ exec (.ldMiVx 1) s = .next t ∧ t.active ∧ t.nextEvent = .instrTick ∧
      t.pc.toNat = s.i.toNat + (0 : Reg).toNat ∧ decodeBytes (s.reg 0) (s.reg (0 + 1)) = .instr (.jp 0x202) :=
  ⟨_, by decide, rfl, ⟨rfl, rfl⟩, rfl, by decide, by decide⟩

theorem witness_MemoryRoundTrip : ∃ t, State.reset.memWrite 4095 [0x5A] = .ok t := ⟨_, rfl⟩

theorem witness_SpriteXorsAndCollides : (List.replicate 15 (0xFF : Byte)).length ≤ 15 := by decide

theorem witness_DrawingTwiceRestores : (List.replicate 15 (0xFF : Byte)).length ≤ 15 := by decide

theorem witness_DrwDrawsSpriteAtI_fifteen :
    { State.reset with i := 0xFF1 }.i.toNat + (0xF : Nibble).toNat ≤ 4096 := by decide

theorem witness_DrwDrawsSpriteAtI_none :
    { State.reset with i := 0x1000 }.i.toNat + (0 : Nibble).toNat ≤ 4096 := by decide

theorem witness_SkipsOnKey_key : ((State.reset.setReg 1 0xF).reg 1).toNat = (0xF : Key).toNat := by decide

theorem witness_SkipsOnKey_no_key : 15 < ((State.reset.setReg 1 0x10).reg 1).toNat := by decide

theorem witness_SkipsOnRegister : (1 : Nibble) ≠ 0 := by decide

theorem witness_JpV0JumpsUnreduced :
    let s := State.reset.setReg 0 0x00
    4095 ≤ (0xFFF : Addr12).toNat + (s.reg 0).toNat ∧ s.active ∧ s.nextEvent = .instrTick :=
  ⟨by decide, ⟨rfl, rfl⟩, rfl⟩

theorem witness_LdDtVxSetsDelayTimer : State.reset.fault = none := rfl

theorem witness_LdStVxSetsSoundTimer : State.reset.fault = none := rfl

end Sys2Proof.Tests
end

/-! ## Decoding the word of an instruction, and the words with an unsupported minor opcode -/

namespace Sys2Proof

/-- The decoder inverts `encode` (R92, R95): the major opcode chooses the arm, and within majors 8, E and F the minor
opcode or the function does. -/
theorem decode_encode (i : Instr) : decode (encode i) = .instr i := by
  cases i with
  | cls | ret => rfl
  | jp | call | ldINnn | jpV0 => simp [encode, decode]
  | seVxKk | sneVxKk | ldVxKk | addVxKk | rnd => simp [encode, decode]
  | seVxVy | sneVxVy | drw => simp [encode, decode]
  | ldVxVy | or | and | xor | addVxVy | sub | shr | subn | shl => simp [encode, decode, decode8]
  | skp | sknp => simp [encode, decode, decodeE]
  | ldVxDt | ldVxK | ldDtVx | ldStVx | addIVx | ldFVx | ldBVx | ldMiVx | ldVxMi => simp [encode, decode, decodeF]

theorem rejectWord_formatR (op x y m : Nibble) : rejectWord (formatR op x y m) = .unsupported op x y m := by
  simp [rejectWord]

/-- Majors 5 and 9 have the one minor opcode 0 (R97, R98). -/
theorem decode_formatR_unsupported {op m : Nibble} (hop : op = 0x5 ∨ op = 0x9) (hm : m ≠ 0#4) (x y : Reg) :
    decode (formatR op x y m) = .unsupported op x y m := by
  rcases hop with rfl | rfl <;> simp [decode, hm, rejectWord_formatR]

end Sys2Proof

/-! ## Instructions that write pc alone: skips and the indexed jump -/

namespace Sys2Proof.Machine

theorem exec_seVxKk (x : Reg) (kk : Byte) (s : State) :
    exec (.seVxKk x kk) s = .next (s.skipIf (s.reg x == kk)) := rfl

theorem exec_sneVxKk (x : Reg) (kk : Byte) (s : State) :
    exec (.sneVxKk x kk) s = .next (s.skipIf (s.reg x != kk)) := rfl

theorem exec_seVxVy (x y : Reg) (s : State) :
    exec (.seVxVy x y) s = .next (s.skipIf (s.reg x == s.reg y)) := rfl

theorem exec_sneVxVy (x y : Reg) (s : State) :
    exec (.sneVxVy x y) s = .next (s.skipIf (s.reg x != s.reg y)) := rfl

theorem exec_jpV0 (nnn : Addr12) (s : State) : exec (.jpV0 nnn) s = .next (s.setPc (s.targetV0 nnn)) := rfl

theorem State.setPc_frame (s : State) (p : Word) : UnchangedExcept [.pc] s (s.setPc p) := by
  intro part hpart
  cases part
  case pc => exact absurd (List.mem_singleton_self _) hpart
  case mem => exact s.byteAt_setPc p
  all_goals rfl

theorem State.skipIf_frame (s : State) (c : Bool) : UnchangedExcept [.pc] s (s.skipIf c) := s.setPc_frame _

/-- A skip on equality compares the two bytes as unsigned values (R124, R126). -/
theorem State.skipIf_beq_pc (s : State) (a b : Byte) :
    (s.skipIf (a == b)).pc = s.pc + (if a.toNat = b.toNat then 4 else 2) := by
  by_cases h : a = b
  · simp [h]
  · have hne : a.toNat ≠ b.toNat := mt BitVec.eq_of_toNat_eq h
    simp [h, hne]

/-- A skip on difference compares the two bytes as unsigned values (R125, R127). -/
theorem State.skipIf_bne_pc (s : State) (a b : Byte) :
    (s.skipIf (a != b)).pc = s.pc + (if a.toNat = b.toNat then 2 else 4) := by
  by_cases h : a = b
  · simp [h]
  · have hne : a.toNat ≠ b.toNat := mt BitVec.eq_of_toNat_eq h
    simp [h, hne]

/-- Settles O30: an equality or a difference of bytes decides between the two advances, and `skipIf` writes pc alone. -/
theorem skipsOnImmediate : Obligations.SkipsOnImmediate := by
  intro x kk s
  refine ⟨decode_encode (.seVxKk x kk), decode_encode (.sneVxKk x kk), ?eq, ?ne⟩
  case eq => exact ⟨_, exec_seVxKk x kk s, s.skipIf_beq_pc _ _, s.skipIf_frame _⟩
  case ne => exact ⟨_, exec_sneVxKk x kk s, s.skipIf_bne_pc _ _, s.skipIf_frame _⟩

/-- Settles O31: as O30, with V[y] in place of the immediate; a minor opcode other than 0 is rejected. -/
theorem skipsOnRegister : Obligations.SkipsOnRegister := by
  intro x y s
  refine ⟨decode_encode (.seVxVy x y), decode_encode (.sneVxVy x y), ?minor, ?eq, ?ne⟩
  case minor =>
    exact fun m hm => ⟨decode_formatR_unsupported (.inl rfl) hm x y, decode_formatR_unsupported (.inr rfl) hm x y⟩
  case eq => exact ⟨_, exec_seVxVy x y s, s.skipIf_beq_pc _ _, s.skipIf_frame _⟩
  case ne => exact ⟨_, exec_sneVxVy x y s, s.skipIf_bne_pc _ _, s.skipIf_frame _⟩

/-! ## The indexed jump, and the step after a jump past the last word -/

/-- The largest target is 0xFFF + 0xFF (R27, R128). -/
theorem State.targetV0_le (s : State) (nnn : Addr12) : (s.targetV0 nnn).toNat ≤ 0x10FE := by
  have hn := nnn.isLt
  have hv := (s.reg 0).isLt
  rw [s.targetV0_toNat]
  omega

theorem step_of_instrTick {s : State} (he : s.nextEvent = .instrTick) : step s = instrTick s.consumeEvent := by
  rw [step, he, handle]

/-- The first check of an active core's step: a pc above 4094 faults, whatever memory holds (R69, R253). -/
theorem step_fetchOutOfRange {s : State} (ha : s.active) (he : s.nextEvent = .instrTick) (hpc : 4094 < s.pc.toNat) :
    step s = .next (s.consumeEvent.raise (.fetchOutOfRange s.pc)) := by
  have ha' : s.consumeEvent.active := ha
  rw [step_of_instrTick he, instrTick_active ha', s.consumeEvent.fetch_out hpc, State.consumeEvent_pc]

theorem State.active_setPc {s : State} (p : Word) (h : s.active) : (s.setPc p).active := h

theorem State.nextEvent_setPc (s : State) (p : Word) : (s.setPc p).nextEvent = s.nextEvent := rfl

/-- Settles O32: the 16-bit sum of a 12-bit and an 8-bit value does not wrap, and from 4095 on it is no fetch address. -/
theorem jpV0JumpsUnreduced : Obligations.JpV0JumpsUnreduced := by
  intro nnn s
  have hpc : (s.setPc (s.targetV0 nnn)).pc.toNat = nnn.toNat + (s.reg 0).toNat := s.targetV0_toNat nnn
  refine ⟨decode_encode (.jpV0 nnn), s.setPc (s.targetV0 nnn), exec_jpV0 nnn s, hpc, s.targetV0_le nnn,
    s.setPc_frame _, fun hsum ha he => ?_⟩
  exact step_fetchOutOfRange (State.active_setPc _ ha) ((s.nextEvent_setPc _).trans he) (by omega)

end Sys2Proof.Machine

/-! ## Instructions that load one register: immediate load, immediate add, register copy -/

namespace Sys2Proof.Machine

theorem exec_ldVxKk (x : Reg) (kk : Byte) (s : State) : exec (.ldVxKk x kk) s = .next (s.setReg x kk).advance := rfl

theorem exec_addVxKk (x : Reg) (kk : Byte) (s : State) :
    exec (.addVxKk x kk) s = .next (s.setReg x (s.reg x + kk)).advance := rfl

theorem exec_ldVxVy (x y : Reg) (s : State) : exec (.ldVxVy x y) s = .next (s.setReg x (s.reg y)).advance := rfl

theorem State.setReg_frame (s : State) (x : Reg) (b : Byte) : UnchangedExcept [.v] s (s.setReg x b) := by
  intro part hpart
  cases part
  case v => exact absurd (List.mem_singleton_self _) hpart
  case mem => exact s.byteAt_setReg x b
  all_goals rfl

theorem State.advance_frame (s : State) : UnchangedExcept [.pc] s s.advance := s.setPc_frame _

theorem State.setReg_advance_frame (s : State) (x : Reg) (b : Byte) :
    UnchangedExcept [.v, .pc] s (s.setReg x b).advance :=
  have hreg : UnchangedExcept [.v, .pc] s (s.setReg x b) := (s.setReg_frame x b).mono (by simp)
  have hpc : UnchangedExcept [.v, .pc] (s.setReg x b) (s.setReg x b).advance := (State.advance_frame _).mono (by simp)
  hreg.trans hpc

/-- The whole effect of an instruction that is "V[x] <- b, then pc <- pc + 2"; x = F is no special case (R21, R26). -/
theorem exec_setReg_advance {i : Instr} {s : State} {x : Reg} {b : Byte}
    (h : exec i s = .next (s.setReg x b).advance) :
    ∃ t, exec i s = .next t ∧ t.reg x = b ∧ (∀ z, z ≠ x → t.reg z = s.reg z) ∧ t.pc = s.pc + 2 ∧
      UnchangedExcept [.v, .pc] s t := by
  refine ⟨_, h, ?dest, ?others, ?pc, s.setReg_advance_frame x b⟩
  case dest => rw [State.reg_advance, State.reg_setReg_same]
  case others => exact fun z hz => by rw [State.reg_advance, s.reg_setReg_other hz]
  case pc => rw [State.advance_pc, State.setReg_pc]

/-- Settles O34: the register written is V[x] + kk as a byte, whose value is the sum modulo 256. -/
theorem addVxKkAddsNoFlag : Obligations.AddVxKkAddsNoFlag := by
  intro x kk s
  obtain ⟨t, ht, hx, hrest⟩ := exec_setReg_advance (exec_addVxKk x kk s)
  have hsum : (t.reg x).toNat = ((s.reg x).toNat + kk.toNat) % 256 := by rw [hx, BitVec.toNat_add]
  exact ⟨decode_encode (.addVxKk x kk), t, ht, hsum, hrest⟩

/-- Settles O33: the register written is the immediate. -/
theorem ldVxKkLoads : Obligations.LdVxKkLoads := fun x kk s =>
  ⟨decode_encode (.ldVxKk x kk), exec_setReg_advance (exec_ldVxKk x kk s)⟩

/-- Settles O35: the register written is V[y] as it was before, also when y = x. -/
theorem ldVxVyCopies : Obligations.LdVxVyCopies := fun x y s =>
  ⟨decode_encode (.ldVxVy x y), exec_setReg_advance (exec_ldVxVy x y s)⟩

end Sys2Proof.Machine

/-! ## Instructions that load the index register -/

namespace Sys2Proof.Machine

theorem exec_ldINnn (nnn : Addr12) (s : State) : exec (.ldINnn nnn) s = .next { s with i := zext16 nnn }.advance := rfl

theorem State.withI_frame (s : State) (w : Word) : UnchangedExcept [.i] s { s with i := w } := by
  intro part hpart
  cases part
  case i => exact absurd (List.mem_singleton_self _) hpart
  case mem => exact State.byteAt_congr rfl rfl
  all_goals rfl

theorem State.withI_advance_frame (s : State) (w : Word) : UnchangedExcept [.i, .pc] s { s with i := w }.advance :=
  have hi : UnchangedExcept [.i, .pc] s { s with i := w } := (s.withI_frame w).mono (by simp)
  have hpc : UnchangedExcept [.i, .pc] { s with i := w } { s with i := w }.advance :=
    (State.advance_frame _).mono (by simp)
  hi.trans hpc

/-- The whole effect of an instruction that is "I <- w, then pc <- pc + 2" (R26). -/
theorem exec_withI_advance {i : Instr} {s : State} {w : Word} (h : exec i s = .next { s with i := w }.advance) :
    ∃ t, exec i s = .next t ∧ t.i = w ∧ t.pc = s.pc + 2 ∧ UnchangedExcept [.i, .pc] s t :=
  ⟨_, h, State.advance_i _, State.advance_pc _, s.withI_advance_frame w⟩

/-- Settles O42: zero extension keeps the value of nnn, which has 12 bits. -/
theorem ldINnnLoadsIndex : Obligations.LdINnnLoadsIndex := by
  intro nnn s
  obtain ⟨t, ht, hi, hpc, hframe⟩ := exec_withI_advance (exec_ldINnn nnn s)
  have hval : t.i.toNat = nnn.toNat := by rw [hi, zext16_toNat]
  have hle : t.i.toNat ≤ 0xFFF := hval ▸ Nat.le_of_lt_succ nnn.isLt
  exact ⟨decode_encode (.ldINnn nnn), t, ht, hval, hle, hpc, hframe⟩

end Sys2Proof.Machine

/-! ## The display: clearing the framebuffer -/

namespace Sys2Proof.Machine

theorem exec_cls (s : State) : exec .cls s = .next { s with fb := Framebuffer.dark }.advance := rfl

theorem State.withFb_frame (s : State) (fb : Framebuffer) : UnchangedExcept [.fb] s { s with fb := fb } := by
  intro part hpart
  cases part
  case fb => exact absurd (List.mem_singleton_self _) hpart
  case mem => exact State.byteAt_congr rfl rfl
  all_goals rfl

theorem State.withFb_advance_frame (s : State) (fb : Framebuffer) :
    UnchangedExcept [.fb, .pc] s { s with fb := fb }.advance :=
  have hfb : UnchangedExcept [.fb, .pc] s { s with fb := fb } := (s.withFb_frame fb).mono (by simp)
  have hpc : UnchangedExcept [.fb, .pc] { s with fb := fb } { s with fb := fb }.advance :=
    (State.advance_frame _).mono (by simp)
  hfb.trans hpc

/-- Settles O52: the framebuffer written is the dark one, whatever stood there; V, and VF with it, lies in the frame. -/
theorem clsClearsEveryCell : Obligations.ClsClearsEveryCell := by
  refine ⟨decode_encode .cls, fun s => ⟨_, exec_cls s, ?cells, ?pc, s.withFb_advance_frame _⟩⟩
  case cells => exact fun row col => by rw [State.advance_fb, Framebuffer.cell_dark]
  case pc => exact State.advance_pc _

end Sys2Proof.Machine

/-! ## The read of the delay timer -/

namespace Sys2Proof.Machine

theorem exec_ldVxDt (x : Reg) (s : State) : exec (.ldVxDt x) s = .next (s.setReg x s.dt).advance := rfl

/-- Settles O58: the register written is DT; DT itself lies in the frame. -/
theorem ldVxDtReadsTimer : Obligations.LdVxDtReadsTimer := fun x s =>
  ⟨decode_encode (.ldVxDt x), exec_setReg_advance (exec_ldVxDt x s)⟩

end Sys2Proof.Machine

/-! ## The release of a key -/

namespace Sys2Proof.Machine

theorem State.setKey_frame (s : State) (k : Key) (down : Bool) : UnchangedExcept [.keys] s (s.setKey k down) := by
  intro part hpart
  cases part
  case keys => exact absurd (List.mem_singleton_self _) hpart
  case mem => exact State.byteAt_congr rfl rfl
  all_goals rfl

theorem State.keyDown_releaseKey (s : State) (k j : Key) :
    (s.releaseKey k).keyDown j = true ↔ j ≠ k ∧ s.keyDown j = true := by
  rw [State.releaseKey, s.keyDown_setKey]
  by_cases h : j = k <;> simp [h]

/-- An unhalted core handles a release whether it runs or waits: WAIT is not read (R228). -/
theorem handle_release {s : State} (h : s.fault = none) (k : Key) :
    handle (.release k) s = .next (s.releaseKey k) := by
  rw [handle, State.unlessHalted_running h]

/-- Settles O18: `releaseKey` clears the one key, pressed or not, and writes KEYS alone. -/
theorem releaseEvent : Obligations.ReleaseEvent := fun k s h =>
  ⟨s.releaseKey k, handle_release h k, s.keyDown_releaseKey k, s.setKey_frame k false⟩

end Sys2Proof.Machine

/-! ## The decoder inverted, the opcode map and the table of unsupported words -/

namespace Sys2Proof

/-- Settles O1: the decoder inverts the encoder, and the two bytes of a word make the word again. -/
theorem decodeOfEncode : Obligations.DecodeOfEncode := fun i =>
  ⟨decode_encode i, (decodeBytes_bytes _).trans (decode_encode i)⟩

/-! ### A word is made of its fields -/

theorem formatA_fields (w : Word) : formatA (fieldH1 w) (fieldNnn w) = w := by
  apply BitVec.eq_of_toNat_eq
  rw [formatA_toNat, fieldH1_toNat, fieldNnn_toNat]
  omega

theorem formatI_fields (w : Word) : formatI (fieldH1 w) (fieldX w) (fieldKk w) = w := by
  apply BitVec.eq_of_toNat_eq
  rw [formatI_toNat, fieldH1_toNat, fieldX_toNat, fieldKk_toNat]
  omega

theorem formatR_fields (w : Word) : formatR (fieldH1 w) (fieldX w) (fieldY w) (fieldN w) = w := by
  apply BitVec.eq_of_toNat_eq
  rw [formatR_toNat, fieldH1_toNat, fieldX_toNat, fieldY_toNat, fieldN_toNat]
  omega

theorem formatA_eq_self {w : Word} {op : Nibble} (h : (fieldH1 w).toNat = op.toNat) : formatA op (fieldNnn w) = w := by
  rw [← BitVec.eq_of_toNat_eq h, formatA_fields]

theorem formatI_eq_self {w : Word} {op : Nibble} (h : (fieldH1 w).toNat = op.toNat) :
    formatI op (fieldX w) (fieldKk w) = w := by
  rw [← BitVec.eq_of_toNat_eq h, formatI_fields]

theorem formatR_eq_self {w : Word} {op m : Nibble} (h : (fieldH1 w).toNat = op.toNat)
    (hm : (fieldN w).toNat = m.toNat) : formatR op (fieldX w) (fieldY w) m = w := by
  rw [← BitVec.eq_of_toNat_eq h, ← BitVec.eq_of_toNat_eq hm, formatR_fields]

theorem formatX_eq_self {w : Word} {op : Nibble} {fn : Byte} (h : (fieldH1 w).toNat = op.toNat)
    (hfn : fieldKk w = fn) : formatX op (fieldX w) fn = w := by
  rw [← hfn, formatX_eq, formatI_eq_self h]

/-! ### Every word is the word of an instruction or is rejected -/

/-- The decoder's answer on w is sound: an instruction whose word is w, or the rejection of w. -/
def Decoded.SoundFor (w : Word) (d : Decoded) : Prop := (∃ i, d = .instr i ∧ encode i = w) ∨ d = rejectWord w

theorem Decoded.SoundFor.instr {w : Word} {i : Instr} (h : encode i = w) : Decoded.SoundFor w (.instr i) :=
  .inl ⟨i, rfl, h⟩

theorem Decoded.SoundFor.reject (w : Word) : Decoded.SoundFor w (rejectWord w) := .inr rfl

/-- One test of the decoder: sound when its instruction is and what stands after it is. -/
theorem Decoded.SoundFor.ite {w : Word} {c : Prop} [Decidable c] {i : Instr} {d : Decoded} (hi : c → encode i = w)
    (hd : Decoded.SoundFor w d) : Decoded.SoundFor w (if c then .instr i else d) := by
  by_cases h : c
  · rw [if_pos h]
    exact .instr (hi h)
  · rw [if_neg h]
    exact hd

theorem decodeZ_sound (w : Word) : Decoded.SoundFor w (decodeZ w) :=
  .ite Eq.symm (.ite Eq.symm (.reject w))

theorem decode8_sound {w : Word} (h : (fieldH1 w).toNat = 8) : Decoded.SoundFor w (decode8 w) := by
  unfold decode8
  split
  case h_10 => exact .reject w
  all_goals exact .instr (formatR_eq_self h ‹_›)

theorem decodeE_sound {w : Word} (h : (fieldH1 w).toNat = 14) : Decoded.SoundFor w (decodeE w) :=
  .ite (formatX_eq_self h) (.ite (formatX_eq_self h) (.reject w))

theorem decodeF_sound {w : Word} (h : (fieldH1 w).toNat = 15) : Decoded.SoundFor w (decodeF w) :=
  .ite (formatX_eq_self h) <| .ite (formatX_eq_self h) <| .ite (formatX_eq_self h) <| .ite (formatX_eq_self h) <|
  .ite (formatX_eq_self h) <| .ite (formatX_eq_self h) <| .ite (formatX_eq_self h) <| .ite (formatX_eq_self h) <|
  .ite (formatX_eq_self h) <| .reject w

theorem decode_sound (w : Word) : Decoded.SoundFor w (decode w) := by
  unfold decode
  split
  case h_1 => exact decodeZ_sound w
  case h_2 h | h_3 h | h_11 h | h_12 h => exact .instr (formatA_eq_self h)
  case h_4 h | h_5 h | h_7 h | h_8 h | h_13 h => exact .instr (formatI_eq_self h)
  case h_6 h | h_10 h => exact .ite (fun hn => formatR_eq_self h (congrArg BitVec.toNat hn)) (.reject w)
  case h_9 h => exact decode8_sound h
  case h_14 h => exact .instr (formatR_eq_self h rfl)
  case h_15 h => exact decodeE_sound h
  case h_16 =>
    have hlt := (fieldH1 w).isLt
    exact decodeF_sound (by grind)

/-- Settles O2: the word of the instruction decoded is the word itself, since the fields the decoder reads and the
constants it compares with are all the bits of the word. -/
theorem encodeOfDecode : Obligations.EncodeOfDecode := by
  intro w i hi
  rcases decode_sound w with ⟨j, hj, hw⟩ | hreject
  · obtain rfl : i = j := Decoded.instr.inj (hi.symm.trans hj)
    exact hw
  · exact Decoded.noConfusion (hi.symm.trans hreject)

/-! ### The table of unsupported words -/

/-- A decoder's answer that is no instruction. -/
def Decoded.Rejects (d : Decoded) : Prop := ∃ h1 h2 h3 h4, d = .unsupported h1 h2 h3 h4

@[simp] theorem Decoded.not_rejects_instr (i : Instr) : ¬ (Decoded.instr i).Rejects := by simp [Decoded.Rejects]

@[simp] theorem rejectWord_rejects (w : Word) : (rejectWord w).Rejects := ⟨_, _, _, _, rfl⟩

/-- One test of the decoder rejects when the test fails and what stands after it rejects. -/
theorem Decoded.rejects_ite_iff (c : Prop) [Decidable c] (i : Instr) (d : Decoded) :
    (if c then Decoded.instr i else d).Rejects ↔ ¬ c ∧ d.Rejects := by
  by_cases h : c
  · rw [if_pos h, iff_false_left (Decoded.not_rejects_instr i)]
    exact fun hn => hn.1 h
  · rw [if_neg h]
    exact ⟨fun hd => ⟨h, hd⟩, fun hd => hd.2⟩

theorem word_eq_iff (w c : Word) : w = c ↔ w.toNat = c.toNat := BitVec.toNat_inj.symm

theorem fieldKk_eq_iff (w : Word) (c : Byte) : fieldKk w = c ↔ w.toNat % 0x100 = c.toNat := by
  rw [← BitVec.toNat_inj, fieldKk_toNat]

theorem decodeZ_rejects_iff (w : Word) : (decodeZ w).Rejects ↔ w.toNat ≠ 0x00E0 ∧ w.toNat ≠ 0x00EE := by
  simp only [decodeZ, Decoded.rejects_ite_iff, word_eq_iff, BitVec.reduceToNat, rejectWord_rejects, and_true, ne_eq]

theorem decode8_rejects_iff (w : Word) :
    (decode8 w).Rejects ↔ w.toNat % 0x10 ∈ [0x8, 0x9, 0xA, 0xB, 0xC, 0xD, 0xF] := by
  simp only [decode8, fieldN_toNat]
  split
  case h_10 =>
    simp only [rejectWord_rejects, true_iff, List.mem_cons, List.not_mem_nil, or_false]
    grind
  all_goals simp [*]

theorem decodeE_rejects_iff (w : Word) : (decodeE w).Rejects ↔ w.toNat % 0x100 ∉ [0x9E, 0xA1] := by
  simp only [decodeE, Decoded.rejects_ite_iff, fieldKk_eq_iff, BitVec.reduceToNat, rejectWord_rejects, and_true,
    List.mem_cons, List.not_mem_nil, or_false, not_or]

theorem decodeF_rejects_iff (w : Word) :
    (decodeF w).Rejects ↔ w.toNat % 0x100 ∉ [0x07, 0x0A, 0x15, 0x18, 0x1E, 0x29, 0x33, 0x55, 0x65] := by
  simp only [decodeF, Decoded.rejects_ite_iff, fieldKk_eq_iff, BitVec.reduceToNat, rejectWord_rejects, and_true,
    List.mem_cons, List.not_mem_nil, or_false, not_or]

/-- Majors 5 and 9: rejected exactly when the minor opcode is not 0 (R98). -/
theorem minorZero_rejects_iff (w : Word) (i : Instr) :
    (if fieldN w = 0#4 then Decoded.instr i else rejectWord w).Rejects ↔ w.toNat % 0x10 ≠ 0 := by
  rw [Decoded.rejects_ite_iff, ← BitVec.toNat_inj, fieldN_toNat]
  exact and_iff_left (rejectWord_rejects w)

/-- Settles O4: the major opcode chooses the decoder's arm, and each arm rejects exactly the words of its table row. -/
theorem unsupportedWords : Obligations.UnsupportedWords := by
  intro w
  change (decode w).Rejects ↔ _
  simp only [decode, fieldH1_toNat]
  split
  case h_1 => simp [decodeZ_rejects_iff, *]
  case h_6 | h_10 => simp [minorZero_rejects_iff, *]
  case h_9 => simp [decode8_rejects_iff, *]
  case h_15 => simp [decodeE_rejects_iff, *]
  case h_16 =>
    have hlt := w.isLt
    have h15 : w.toNat / 4096 = 15 := by grind
    simp [decodeF_rejects_iff, h15]
  all_goals simp [*]

/-! ### The rows of the opcode map -/

theorem and_wholeWord (w : Word) : (w &&& 0xFFFF).toNat = w.toNat := congrArg BitVec.toNat BitVec.and_allOnes

theorem and_major (w : Word) : (w &&& 0xF000).toNat = w.toNat / 4096 * 4096 := by
  have h : formatA (fieldH1 w) (fieldNnn w) &&& (0xF#4 ++ 0#12 : Word) = fieldH1 w ++ 0#12 :=
    (Laws.EncodedRow.and_append ..).trans (by rw [Laws.EncodedRow.and_ones4, BitVec.and_zero])
  rw [formatA_fields] at h
  rw [show (0xF000 : Word) = 0xF#4 ++ 0#12 from rfl, h, toNat_append12, fieldH1_toNat, BitVec.toNat_ofNat]
  omega

theorem and_major_minor (w : Word) : (w &&& 0xF00F).toNat = w.toNat / 4096 * 4096 + w.toNat % 16 := by
  have h : formatR (fieldH1 w) (fieldX w) (fieldY w) (fieldN w) &&&
      ((0xF#4 ++ 0#4 : Byte) ++ (0#4 ++ 0xF#4 : Byte) : Word) = formatR (fieldH1 w) 0 0 (fieldN w) :=
    (Laws.EncodedRow.and_append ..).trans (by rw [Laws.EncodedRow.high_nibble, Laws.EncodedRow.low_nibble]; rfl)
  rw [formatR_fields] at h
  rw [show (0xF00F : Word) = (0xF#4 ++ 0#4 : Byte) ++ (0#4 ++ 0xF#4 : Byte) from rfl, h, formatR_toNat, fieldH1_toNat,
    fieldN_toNat]
  simp

theorem and_major_function (w : Word) : (w &&& 0xF0FF).toNat = w.toNat / 4096 * 4096 + w.toNat % 256 := by
  have h : formatI (fieldH1 w) (fieldX w) (fieldKk w) &&& ((0xF#4 ++ 0#4 : Byte) ++ 0xFF#8 : Word) =
      formatI (fieldH1 w) 0 (fieldKk w) :=
    (Laws.EncodedRow.and_append ..).trans (by rw [Laws.EncodedRow.high_nibble, Laws.EncodedRow.and_ones8]; rfl)
  rw [formatI_fields] at h
  rw [show (0xF0FF : Word) = (0xF#4 ++ 0#4 : Byte) ++ 0xFF#8 from rfl, h, formatI_toNat, fieldH1_toNat, fieldKk_toNat]
  simp

theorem OpRow.selects_iff (r : OpRow) (w : Word) : r.selects w = true ↔ w &&& r.mask = r.pattern := beq_iff_eq

open Laws.EncodedRow in
theorem encode_selects_rowIndex (i : Instr) : ∃ r, opcodeMap[i.rowIndex]? = some r ∧ r.selects (encode i) = true :=
  match i with
  | .cls => cls
  | .ret => ret
  | .jp nnn => jp nnn
  | .call nnn => call nnn
  | .seVxKk x kk => seVxKk x kk
  | .sneVxKk x kk => sneVxKk x kk
  | .seVxVy x y => seVxVy x y
  | .ldVxKk x kk => ldVxKk x kk
  | .addVxKk x kk => addVxKk x kk
  | .ldVxVy x y => ldVxVy x y
  | .or x y => or x y
  | .and x y => and x y
  | .xor x y => xor x y
  | .addVxVy x y => addVxVy x y
  | .sub x y => sub x y
  | .shr x y => shr x y
  | .subn x y => subn x y
  | .shl x y => shl x y
  | .sneVxVy x y => sneVxVy x y
  | .ldINnn nnn => ldINnn nnn
  | .jpV0 nnn => jpV0 nnn
  | .rnd x kk => rnd x kk
  | .drw x y n => drw x y n
  | .skp x => skp x
  | .sknp x => sknp x
  | .ldVxDt x => ldVxDt x
  | .ldVxK x => ldVxK x
  | .ldDtVx x => ldDtVx x
  | .ldStVx x => ldStVx x
  | .addIVx x => addIVx x
  | .ldFVx x => ldFVx x
  | .ldBVx x => ldBVx x
  | .ldMiVx x => ldMiVx x
  | .ldVxMi x => ldVxMi x

/-- No two rows of the opcode map select one word: they differ in a bit both masks keep (R96). -/
theorem opcodeMap_disjoint : opcodeMap.Pairwise fun r r' => r.pattern &&& r'.mask ≠ r'.pattern &&& r.mask := by decide

theorem rowIndex_unique {w : Word} {k k' : Nat} {r r' : OpRow} (hk : opcodeMap[k]? = some r)
    (hk' : opcodeMap[k']? = some r') (hr : r.selects w = true) (hr' : r'.selects w = true) : k = k' := by
  have hw : w &&& r.mask = r.pattern := (r.selects_iff w).mp hr
  have hw' : w &&& r'.mask = r'.pattern := (r'.selects_iff w).mp hr'
  have hagree : r.pattern &&& r'.mask = r'.pattern &&& r.mask := by
    rw [← hw, ← hw', BitVec.and_assoc, BitVec.and_assoc, BitVec.and_comm r.mask]
  have hdis := fun {j j'} => List.pairwise_iff_getElem.mp opcodeMap_disjoint j j'
  obtain ⟨hlt, rfl⟩ := List.getElem?_eq_some_iff.mp hk
  obtain ⟨hlt', rfl⟩ := List.getElem?_eq_some_iff.mp hk'
  rcases Nat.lt_trichotomy k k' with h | h | h
  · exact absurd hagree (hdis hlt hlt' h)
  · exact h
  · exact absurd hagree.symm (hdis hlt' hlt h)

/-- No row of the opcode map selects a word of the table of unsupported words (R95, R98). -/
theorem not_selects_of_rejects {w : Word} (h : (decode w).Rejects) : ∀ r ∈ opcodeMap, r.selects w = false := by
  suffices hne : ∀ r ∈ opcodeMap, (w &&& r.mask).toNat ≠ r.pattern.toNat from fun r hr =>
    Bool.eq_false_iff.mpr fun hsel => hne r hr (congrArg BitVec.toNat ((r.selects_iff w).mp hsel))
  simp only [opcodeMap, List.cons_append, List.nil_append, List.forall_mem_cons, List.not_mem_nil, false_imp_iff,
    implies_true, and_true, and_wholeWord, and_major, and_major_minor, and_major_function, BitVec.reduceToNat]
  have htab := (unsupportedWords w).mp h
  simp only [List.mem_cons, List.not_mem_nil, or_false] at htab
  rcases htab with htab | htab | htab | htab | htab | htab
  all_goals omega

/-- Settles O3: a word is the word of an instruction, whose row alone selects it since the rows are disjoint, or it is
rejected, and then it is in the table of unsupported words, which no row meets. -/
theorem decodeFollowsOpcodeMap : Obligations.DecodeFollowsOpcodeMap := by
  intro w
  rcases decode_sound w with ⟨i, hi, rfl⟩ | hreject
  · obtain ⟨r, hr, hsel⟩ := encode_selects_rowIndex i
    refine .inl ⟨i, hi, fun k r' hk => ⟨fun hsel' => rowIndex_unique hk hr hsel' hsel, ?_⟩⟩
    rintro rfl
    obtain rfl : r = r' := Option.some.inj (hr.symm.trans hk)
    exact hsel
  · exact .inr ⟨not_selects_of_rejects (hreject ▸ rejectWord_rejects w), hreject⟩

/-- Settles O5: each of the nineteen words is decoded by evaluation. -/
theorem sampleWordsDecode : Obligations.SampleWordsDecode := by
  unfold Obligations.SampleWordsDecode
  decide

end Sys2Proof

/-! ## What every instruction can do: its fault, or the parts it may write -/

namespace Sys2Proof.Machine

/-- The parts `ps` from t and all others from s. FONT is always from s: no instruction writes it. -/
def State.withParts (s t : State) (ps : List Part) : State where
  v := if .v ∈ ps then t.v else s.v
  i := if .i ∈ ps then t.i else s.i
  pc := if .pc ∈ ps then t.pc else s.pc
  sp := if .sp ∈ ps then t.sp else s.sp
  stack := if .stack ∈ ps then t.stack else s.stack
  dt := if .dt ∈ ps then t.dt else s.dt
  st := if .st ∈ ps then t.st else s.st
  mem := if .mem ∈ ps then t.mem else s.mem
  fb := if .fb ∈ ps then t.fb else s.fb
  keys := if .keys ∈ ps then t.keys else s.keys
  wait := if .wait ∈ ps then t.wait else s.wait
  buzz := if .buzz ∈ ps then t.buzz else s.buzz
  fault := if .fault ∈ ps then t.fault else s.fault
  font := s.font
  draws := if .draws ∈ ps then t.draws else s.draws
  events := if .events ∈ ps then t.events else s.events

/-- A state that differs from s in the parts `ps` of its record alone is unchanged except for those parts. For an
update written out the premise is definitional. -/
theorem UnchangedExcept.of_withParts {ps : List Part} {s t : State} (h : t = s.withParts t ps) :
    UnchangedExcept ps s t := by
  intro p hp
  have hsame : p.same s (s.withParts t ps) := by
    cases p
    case font => rfl
    case mem => exact State.byteAt_congr rfl (if_neg hp)
    all_goals exact if_neg hp
  rwa [← h] at hsame

/-- What an instruction that ends in a next state has done: it took the fault of its row in `mayRaise`, or it wrote
the parts of its row in `mayWrite`. -/
def Effect (i : Instr) (s t : State) : Prop :=
  (∃ f, t = s.raise f ∧ f.code = mayRaise i) ∨ t = s.withParts t (mayWrite i)

/-- A projection that neither taking a fault nor writing the parts of the row changes is kept. -/
theorem Effect.proj_eq {i : Instr} {s t : State} {α : Type} (h : Effect i s t) (π : State → α)
    (hraise : ∀ f, π (s.raise f) = π s) (hparts : π (s.withParts t (mayWrite i)) = π s) : π t = π s := by
  rcases h with ⟨f, rfl, -⟩ | h
  · exact hraise f
  · exact (congrArg π h).trans hparts

theorem Effect.font_eq {i : Instr} {s t : State} (h : Effect i s t) : t.font = s.font :=
  h.proj_eq State.font (fun _ => rfl) rfl

theorem Effect.v_eq {i : Instr} {s t : State} (h : Effect i s t) (hv : .v ∉ mayWrite i) : t.v = s.v :=
  h.proj_eq State.v (fun _ => rfl) (if_neg hv)

theorem Effect.sp_eq {i : Instr} {s t : State} (h : Effect i s t) (hsp : .sp ∉ mayWrite i) : t.sp = s.sp :=
  h.proj_eq State.sp (fun _ => rfl) (if_neg hsp)

theorem Effect.stack_eq {i : Instr} {s t : State} (h : Effect i s t) (hst : .stack ∉ mayWrite i) :
    t.stack = s.stack :=
  h.proj_eq State.stack (fun _ => rfl) (if_neg hst)

theorem Effect.mem_eq {i : Instr} {s t : State} (h : Effect i s t) (hm : .mem ∉ mayWrite i) : t.mem = s.mem :=
  h.proj_eq State.mem (fun _ => rfl) (if_neg hm)

/-- An instruction with one check made its state from the checked value, or took the fault of the check. -/
theorem State.settle_map_inv {α : Type} {s t : State} {r : Except FaultRecord α} {g : α → State}
    (h : s.settle (r.map g) = .next t) : (∃ a, r = .ok a ∧ t = g a) ∨ ∃ f, r = .error f ∧ t = s.raise f := by
  cases r with
  | ok a => exact .inl ⟨a, rfl, (Host.Outcome.next.inj h).symm⟩
  | error f => exact .inr ⟨f, rfl, (Host.Outcome.next.inj h).symm⟩

/-! ### The fault each check can take (R251, R252) -/

theorem keyOperand_error_code {b : Byte} {f : FaultRecord} (h : keyOperand b = .error f) : f.code = 6 := by
  rcases Nat.lt_or_ge 15 b.toNat with hb | hb
  · rw [keyOperand_bad hb] at h
    exact Except.error.inj h ▸ rfl
  · rw [keyOperand_ok hb] at h
    cases h

theorem fontAddr_error_code {b : Byte} {f : FaultRecord} (h : fontAddr b = .error f) : f.code = 7 := by
  rcases Nat.lt_or_ge 15 b.toNat with hb | hb
  · rw [fontAddr_bad hb] at h
    exact Except.error.inj h ▸ rfl
  · rw [fontAddr_ok hb] at h
    cases h

theorem State.memRead_error_code {s : State} {a n : Nat} {f : FaultRecord} (h : s.memRead a n = .error f) :
    f.code = 3 := by
  rcases Nat.lt_or_ge 4096 (a + n) with hr | hr
  · rw [s.memRead_out hr] at h
    exact Except.error.inj h ▸ rfl
  · rw [s.memRead_ok hr] at h
    cases h

theorem State.memRead_length {s : State} {a n : Nat} {bs : List Byte} (h : s.memRead a n = .ok bs) : bs.length = n := by
  rcases Nat.lt_or_ge 4096 (a + n) with hr | hr
  · rw [s.memRead_out hr] at h
    cases h
  · rw [s.memRead_ok hr] at h
    exact Except.ok.inj h ▸ s.bytesFrom_length a n

theorem State.memWrite_error_code {s : State} {a : Nat} {bs : List Byte} {f : FaultRecord}
    (h : s.memWrite a bs = .error f) : f.code = 3 := by
  rcases Nat.lt_or_ge 4096 (a + bs.length) with hr | hr
  · rw [s.memWrite_out hr] at h
    exact Except.error.inj h ▸ rfl
  · rw [s.memWrite_ok hr] at h
    cases h

/-! ### Every instruction -/

/-- A return that ends in a next state found the stack empty, or popped. -/
theorem exec_ret_inv {s t : State} (h : exec .ret s = .next t) : t = s.raise .stackUnderflow ∨
    ∃ hsp : 0 < s.sp.toNat ∧ s.sp.toNat ≤ 15,
      t = { s with pc := s.stack[s.sp.toNat - 1]'(by omega) + 2, sp := s.sp - 1 } := by
  change s.returnFromCall = _ at h
  rcases s.returnFromCall_cases with ⟨_, hs⟩ | ⟨hsp, hs⟩ | ⟨_, hs⟩
  · exact .inl (Host.Outcome.next.inj (h.symm.trans hs))
  · exact .inr ⟨hsp, Host.Outcome.next.inj (h.symm.trans hs)⟩
  · cases hs.symm.trans h

/-- A call that ends in a next state pushed, or found the stack full. -/
theorem exec_call_inv {nnn : Addr12} {s t : State} (h : exec (.call nnn) s = .next t) :
    (∃ hsp : s.sp.toNat < 15,
      t = { s with stack := s.stack.set s.sp.toNat s.pc (by omega), sp := s.sp + 1, pc := zext16 nnn }) ∨
    t = s.raise .stackOverflow := by
  change s.callTo (zext16 nnn) = _ at h
  rcases s.callTo_cases (zext16 nnn) with ⟨hsp, hs⟩ | ⟨_, hs⟩ | ⟨_, hs⟩
  · exact .inl ⟨hsp, Host.Outcome.next.inj (h.symm.trans hs)⟩
  · exact .inr (Host.Outcome.next.inj (h.symm.trans hs))
  · cases hs.symm.trans h

theorem State.write2_withParts (s : State) (x : Reg) (r f : Byte) :
    (s.write2 x r f).advance = s.withParts (s.write2 x r f).advance [.v, .pc, .draws] := by
  rw [s.write2_frame]
  rfl

/-- A store that then advances writes MEM and pc, or takes the fault of its range check. -/
theorem Effect.of_memWrite {i : Instr} {s t : State} {a : Nat} {bs : List Byte} (hw : mayWrite i = [.mem, .pc])
    (hr : mayRaise i = 3) (h : s.settle ((s.memWrite a bs).map State.advance) = .next t) : Effect i s t := by
  unfold Effect
  rw [hw, hr]
  obtain ⟨u, hu, rfl⟩ | ⟨f, hf, rfl⟩ := State.settle_map_inv h
  · obtain ⟨-, rfl⟩ := State.memWrite_inv hu
    exact .inr rfl
  · exact .inl ⟨f, rfl, State.memWrite_error_code hf⟩

/-- Everything an instruction can do, read off its meaning: plain updates write their parts; the flag pair goes through
`write2`; the others have one check, and CALL and RET the stack's bounds. -/
theorem exec_effect {i : Instr} {s t : State} (h : exec i s = .next t) : Effect i s t := by
  cases i
  case cls | jp | seVxKk | sneVxKk | seVxVy | sneVxVy | ldVxKk | addVxKk | ldVxVy | or | and | xor | ldINnn | jpV0 |
      rnd | ldVxDt | ldVxK | ldDtVx | ldStVx | addIVx =>
    obtain rfl := Host.Outcome.next.inj h
    exact .inr rfl
  case addVxVy | sub | shr | subn | shl =>
    obtain rfl := Host.Outcome.next.inj h
    exact .inr (State.write2_withParts ..)
  case ret =>
    obtain rfl | ⟨_, rfl⟩ := exec_ret_inv h
    · exact .inl ⟨_, rfl, rfl⟩
    · exact .inr rfl
  case call =>
    obtain ⟨_, rfl⟩ | rfl := exec_call_inv h
    · exact .inr rfl
    · exact .inl ⟨_, rfl, rfl⟩
  case skp | sknp =>
    obtain ⟨k, -, rfl⟩ | ⟨f, hf, rfl⟩ := State.settle_map_inv h
    · exact .inr rfl
    · exact .inl ⟨f, rfl, keyOperand_error_code hf⟩
  case ldFVx =>
    obtain ⟨a, -, rfl⟩ | ⟨f, hf, rfl⟩ := State.settle_map_inv h
    · exact .inr rfl
    · exact .inl ⟨f, rfl, fontAddr_error_code hf⟩
  case drw | ldVxMi =>
    obtain ⟨bs, -, rfl⟩ | ⟨f, hf, rfl⟩ := State.settle_map_inv h
    · exact .inr rfl
    · exact .inl ⟨f, rfl, State.memRead_error_code hf⟩
  case ldBVx | ldMiVx => exact .of_memWrite rfl rfl h

/-- An instruction tick that answers a next state changed nothing, took fault 1 or 2, or executed an instruction that
was fetched in range (R253, R258). -/
theorem instrTick_inv {s t : State} (h : instrTick s = .next t) :
    t = s ∨ (∃ f, t = s.raise f ∧ (f.code = 1 ∨ f.code = 2)) ∨
    ∃ i, s.pc.toNat ≤ 4094 ∧ decodeBytes (s.byteAt s.pc.toNat) (s.byteAt (s.pc.toNat + 1)) = .instr i ∧
      exec i s = .next t := by
  rcases instrTick_cases s with ⟨-, hs⟩ | ⟨-, -, hs⟩ | ⟨-, hpc, hs⟩
  · exact .inl (Host.Outcome.next.inj (h.symm.trans hs))
  · exact .inr (.inl ⟨_, Host.Outcome.next.inj (h.symm.trans hs), .inr rfl⟩)
  · have hexec := hs.symm.trans h
    cases hd : decodeBytes (s.byteAt s.pc.toNat) (s.byteAt (s.pc.toNat + 1)) with
    | instr i =>
      rw [hd] at hexec
      exact .inr (.inr ⟨i, hpc, rfl, hexec⟩)
    | unsupported h1 h2 h3 h4 =>
      rw [hd] at hexec
      exact .inr (.inl ⟨_, (Host.Outcome.next.inj hexec).symm, .inl rfl⟩)

/-- Settles O21: the fault of an instruction changes FAULT alone, and otherwise the parts of its row were written. -/
theorem instructionsWriteOnlyTheirParts : Obligations.InstructionsWriteOnlyTheirParts := by
  intro i s t h
  rcases exec_effect h with ⟨f, rfl, -⟩ | hparts
  · exact (s.raise_frame f).mono (by simp)
  · exact (UnchangedExcept.of_withParts hparts).mono (List.subset_cons_self ..)

theorem fault_notMem_mayWrite (i : Instr) : .fault ∉ mayWrite i := by cases i <;> simp [mayWrite]

/-- Settles O23: an instruction that took no fault has not written FAULT, which was none before. -/
theorem instructionsRaiseOnlyTheirFault : Obligations.InstructionsRaiseOnlyTheirFault := by
  intro i s t f hnone h hf
  rcases exec_effect h with ⟨g, rfl, hcode⟩ | hparts
  · exact Option.some.inj hf ▸ hcode
  · have hkept : t.fault = s.fault := UnchangedExcept.of_withParts hparts .fault (fault_notMem_mayWrite i)
    rw [hkept, hnone] at hf
    cases hf

/-! ### Registers -/

theorem State.reg_setReg_of_beq {s : State} {x z : Reg} (h : (z == x) = false) (b : Byte) :
    (s.setReg x b).reg z = s.reg z := s.reg_setReg_other (beq_eq_false_iff_ne.mp h) b

theorem State.reg_write2_other {s : State} {x z : Reg} (h : (z == x || z == VF) = false) (r f : Byte) :
    (s.write2 x r f).reg z = s.reg z := by
  obtain ⟨hx, hVF⟩ := Bool.or_eq_false_iff.mp h
  rw [s.reg_write2, if_neg (beq_eq_false_iff_ne.mp hVF), if_neg (beq_eq_false_iff_ne.mp hx)]

/-- A block load of n bytes leaves register z with byte z of the block, or as it was (R185). -/
theorem State.reg_setRegsFrom0 (s : State) (bs : List Byte) (z : Reg) :
    (s.setRegsFrom0 bs).reg z = if h : z.toNat < bs.length then bs[z.toNat] else s.reg z := by
  have h := getElem_writeRegs bs s.v 0 z.toNat z.isLt
  simp only [Nat.zero_le, true_and, Nat.sub_zero] at h
  exact h

/-- Settles O22: an instruction that does not write V keeps every register; the others write through `setReg`,
`write2`, VF after a drawing, or a block of x + 1 registers. -/
theorem instructionsWriteOnlyTheirRegisters : Obligations.InstructionsWriteOnlyTheirRegisters := by
  intro i s t z h hz
  cases i
  case cls | ret | jp | call | seVxKk | sneVxKk | seVxVy | sneVxVy | ldINnn | jpV0 | skp | sknp | ldVxK | ldDtVx |
      ldStVx | addIVx | ldFVx | ldBVx | ldMiVx =>
    exact State.reg_congr ((exec_effect h).v_eq (by simp [mayWrite])) z
  case ldVxKk | addVxKk | ldVxVy | or | and | xor | ldVxDt | rnd =>
    obtain rfl := Host.Outcome.next.inj h
    exact State.reg_setReg_of_beq hz _
  case addVxVy | sub | shr | subn | shl =>
    obtain rfl := Host.Outcome.next.inj h
    exact State.reg_write2_other hz _ _
  case drw =>
    obtain ⟨bs, -, rfl⟩ | ⟨f, -, rfl⟩ := State.settle_map_inv h
    · exact State.reg_setReg_of_beq hz _
    · rfl
  case ldVxMi x =>
    obtain ⟨bs, hbs, rfl⟩ | ⟨f, -, rfl⟩ := State.settle_map_inv h
    · have hlen : bs.length = x.toNat + 1 := State.memRead_length hbs
      have hlt : ¬ z.toNat < bs.length := by
        have := of_decide_eq_false hz
        omega
      exact (s.reg_setRegsFrom0 bs z).trans (dif_neg hlt)
    · rfl

end Sys2Proof.Machine

/-! ## The invariant of every step -/

namespace Sys2Proof.Machine

/-! ### Where pc goes (R26, R120) -/

/-- What an instruction leaves in pc: the old value, after a fault; a plain advance or a skip; a jump target; or the
return address of a call plus 2. -/
def PcEffect (s t : State) : Prop :=
  t.pc = s.pc ∨ t.pc = s.pc + 2 ∨ t.pc = s.pc + 4 ∨ t.pc.toNat ≤ 0x10FE ∨
    ∃ k : Fin 16, k.val < s.sp.toNat ∧ t.pc = s.stack[k] + 2

theorem PcEffect.advance {s t : State} (h : t.pc = s.pc + 2) : PcEffect s t := .inr (.inl h)

theorem PcEffect.raise (s : State) (f : FaultRecord) : PcEffect s (s.raise f) := .inl rfl

theorem PcEffect.target {s t : State} (h : t.pc.toNat ≤ 0x10FE) : PcEffect s t := .inr (.inr (.inr (.inl h)))

theorem PcEffect.skip (s : State) (c : Bool) : PcEffect s (s.skipIf c) := by
  cases c
  · exact .advance rfl
  · exact .inr (.inr (.inl rfl))

theorem State.write2_pc (s : State) (x : Reg) (r f : Byte) : (s.write2 x r f).pc = s.pc :=
  (congrArg State.pc (s.write2_frame x r f) :)

theorem zext16_le (nnn : Addr12) : (zext16 nnn).toNat ≤ 0x10FE := by
  have := nnn.isLt
  rw [zext16_toNat]
  omega

theorem PcEffect.of_memWrite {s t : State} {a : Nat} {bs : List Byte}
    (h : s.settle ((s.memWrite a bs).map State.advance) = .next t) : PcEffect s t := by
  obtain ⟨u, hu, rfl⟩ | ⟨f, -, rfl⟩ := State.settle_map_inv h
  · obtain ⟨-, rfl⟩ := State.memWrite_inv hu
    exact .advance rfl
  · exact .raise s f

theorem exec_pcEffect {i : Instr} {s t : State} (h : exec i s = .next t) : PcEffect s t := by
  cases i
  case cls | ldVxKk | addVxKk | ldVxVy | or | and | xor | ldINnn | rnd | ldVxDt | ldVxK | ldDtVx | ldStVx | addIVx =>
    obtain rfl := Host.Outcome.next.inj h
    exact .advance rfl
  case addVxVy | sub | shr | subn | shl =>
    obtain rfl := Host.Outcome.next.inj h
    exact .advance (congrArg (· + 2) (s.write2_pc ..))
  case seVxKk | sneVxKk | seVxVy | sneVxVy =>
    obtain rfl := Host.Outcome.next.inj h
    exact .skip s _
  case jp nnn =>
    obtain rfl := Host.Outcome.next.inj h
    exact .target (zext16_le nnn)
  case jpV0 nnn =>
    obtain rfl := Host.Outcome.next.inj h
    exact .target (s.targetV0_le nnn)
  case ret =>
    obtain rfl | ⟨hsp, rfl⟩ := exec_ret_inv h
    · exact .raise s _
    · exact .inr (.inr (.inr (.inr ⟨⟨s.sp.toNat - 1, by omega⟩, by simp only; omega, rfl⟩)))
  case call nnn =>
    obtain ⟨_, rfl⟩ | rfl := exec_call_inv h
    · exact .target (zext16_le nnn)
    · exact .raise s _
  case skp | sknp =>
    obtain ⟨k, -, rfl⟩ | ⟨f, -, rfl⟩ := State.settle_map_inv h
    · exact .skip s _
    · exact .raise s f
  case drw | ldFVx | ldVxMi =>
    obtain ⟨a, -, rfl⟩ | ⟨f, -, rfl⟩ := State.settle_map_inv h
    · exact .advance rfl
    · exact .raise s f
  case ldBVx | ldMiVx => exact .of_memWrite h

/-! ### The parts of the invariant -/

/-- The stack's part of the invariant: SP in 0 to 15, and return addresses at most 4094 (R28, R45). -/
def State.StackInv (s : State) : Prop :=
  s.sp.toNat ≤ 15 ∧ ∀ k : Fin 16, k.val < s.sp.toNat → s.stack[k].toNat ≤ 4094

theorem State.inv_iff (s : State) :
    s.inv ↔ s.StackInv ∧ s.pc.toNat ≤ 0x10FE ∧ Memory.wf s.font s.mem := by
  unfold State.inv State.StackInv
  rw [and_assoc]

/-- A call below a full stack pushes its own address, which was fetched from (R123). -/
theorem State.StackInv.push {s : State} (hi : s.StackInv) (hpc : s.pc.toNat ≤ 4094) (hsp : s.sp.toNat < 15) (p : Word) :
    State.StackInv { s with stack := s.stack.set s.sp.toNat s.pc (by omega), sp := s.sp + 1, pc := p } := by
  obtain ⟨-, hstack⟩ := hi
  have hsp' : (s.sp + 1).toNat = s.sp.toNat + 1 := by bv_omega
  refine ⟨by simp only [hsp']; omega, fun k hk => ?_⟩
  simp only [hsp', Fin.getElem_fin, Vector.getElem_set] at hk ⊢
  split
  · exact hpc
  · exact hstack k (by omega)

theorem State.StackInv.pop {s : State} (hi : s.StackInv) (hsp : 0 < s.sp.toNat) (p : Word) :
    State.StackInv { s with pc := p, sp := s.sp - 1 } := by
  obtain ⟨hle, hstack⟩ := hi
  have hsp' : (s.sp - 1).toNat = s.sp.toNat - 1 := BitVec.toNat_sub_of_le (by bv_omega)
  exact ⟨by simp only [hsp']; omega, fun k hk => hstack k (by simp only [hsp'] at hk; omega)⟩

theorem exec_keeps_stackInv {i : Instr} {s t : State} (hi : s.StackInv) (hpc : s.pc.toNat ≤ 4094)
    (h : exec i s = .next t) : t.StackInv := by
  by_cases hw : .sp ∈ mayWrite i ∨ .stack ∈ mayWrite i
  · cases i
    case ret =>
      obtain rfl | ⟨hsp, rfl⟩ := exec_ret_inv h
      · exact hi
      · exact hi.pop hsp.1 _
    case call =>
      obtain ⟨hsp, rfl⟩ | rfl := exec_call_inv h
      · exact hi.push hpc hsp _
      · exact hi
    all_goals simp [mayWrite] at hw
  · obtain ⟨hsp, hstack⟩ := not_or.mp hw
    unfold State.StackInv
    rw [(exec_effect h).sp_eq hsp, (exec_effect h).stack_eq hstack]
    exact hi

theorem memWrite_keeps_wf {s t : State} {a : Nat} {bs : List Byte} (hwf : Memory.wf s.font s.mem)
    (h : s.settle ((s.memWrite a bs).map State.advance) = .next t) : Memory.wf t.font t.mem := by
  obtain ⟨u, hu, rfl⟩ | ⟨f, -, rfl⟩ := State.settle_map_inv h
  · obtain ⟨hr, rfl⟩ := State.memWrite_inv hu
    exact Memory.writeList_wf bs hwf hr
  · exact hwf

theorem exec_keeps_wf {i : Instr} {s t : State} (hwf : Memory.wf s.font s.mem) (h : exec i s = .next t) :
    Memory.wf t.font t.mem := by
  by_cases hw : .mem ∈ mayWrite i
  · cases i
    case ldBVx | ldMiVx => exact memWrite_keeps_wf hwf h
    all_goals simp [mayWrite] at hw
  · rw [(exec_effect h).font_eq, (exec_effect h).mem_eq hw]
    exact hwf

theorem PcEffect.le {s t : State} (hi : s.StackInv) (hpc : s.pc.toNat ≤ 4094) (h : PcEffect s t) :
    t.pc.toNat ≤ 0x10FE := by
  rcases h with h | h | h | h | ⟨k, hk, h⟩
  · rw [h]
    omega
  · rw [h]
    bv_omega
  · rw [h]
    bv_omega
  · exact h
  · have hret := hi.2 k hk
    rw [h]
    bv_omega

/-! ### Instructions, events, steps -/

theorem exec_keeps_inv {i : Instr} {s t : State} (hi : s.inv) (hpc : s.pc.toNat ≤ 4094) (h : exec i s = .next t) :
    t.inv := by
  obtain ⟨hstack, -, hwf⟩ := s.inv_iff.mp hi
  exact t.inv_iff.mpr ⟨exec_keeps_stackInv hstack hpc h, (exec_pcEffect h).le hstack hpc, exec_keeps_wf hwf h⟩

theorem State.inv_raise {s : State} (hi : s.inv) (f : FaultRecord) : (s.raise f).inv := hi

theorem instrTick_keeps_inv {s t : State} (hi : s.inv) (h : instrTick s = .next t) : t.inv := by
  obtain rfl | ⟨f, rfl, -⟩ | ⟨i, hpc, -, hexec⟩ := instrTick_inv h
  · exact hi
  · exact State.inv_raise hi f
  · exact exec_keeps_inv hi hpc hexec

theorem State.reset_inv : State.reset.inv :=
  ⟨by decide, fun _ hk => absurd hk (Nat.not_lt_zero _), by decide, Memory.wf_nil⟩

theorem load_keeps_inv {s t : State} {rom : List Byte} (h : s.load rom = .next t) : t.inv := by
  rcases s.load_cases rom with ⟨hlen, hs⟩ | ⟨-, hs⟩
  · obtain rfl := Host.Outcome.next.inj (hs.symm.trans h)
    have hwf : Memory.wf s.font (Memory.writeList s.font [] 0x200 rom) := Memory.writeList_wf rom Memory.wf_nil (by
      simp only [Config.memSize]
      omega)
    obtain ⟨hsp, hstack, hpc, -⟩ := State.reset_inv
    exact ⟨hsp, hstack, hpc, hwf⟩
  · cases hs.symm.trans h

theorem State.inv_unlessHalted {s t : State} (hs : s.inv) (ht : t.inv) : (s.unlessHalted t).inv := by
  unfold State.unlessHalted
  split
  · exact hs
  · exact ht

theorem State.inv_pressKey {s : State} (hi : s.inv) (k : Key) : (s.pressKey k).inv := by
  unfold State.pressKey
  split
  · exact hi
  · exact hi

theorem handle_keeps_inv {e : Event} {s t : State} (hi : s.inv) (h : handle e s = .next t) : t.inv := by
  cases e with
  | instrTick => exact instrTick_keeps_inv hi h
  | timerTick => exact Host.Outcome.next.inj h ▸ State.inv_unlessHalted hi hi
  | renderTick => exact Host.Outcome.next.inj h ▸ hi
  | press k => exact Host.Outcome.next.inj h ▸ State.inv_unlessHalted hi (State.inv_pressKey hi k)
  | release k => exact Host.Outcome.next.inj h ▸ State.inv_unlessHalted hi hi
  | load rom => exact load_keeps_inv h

/-- Settles O10: taking the event off the sequence touches no part of the invariant, and handling it keeps all parts:
an instruction is executed only when it was fetched, at a pc of at most 4094, which bounds what a call pushes and where
an advance leads. -/
theorem stepKeepsInv : Obligations.StepKeepsInv := fun s _ hi h =>
  have hconsumed : s.consumeEvent.inv := hi
  handle_keeps_inv hconsumed h

/-- Settles O11: the stack is empty, pc is 0x200 and memory lists no address. -/
theorem resetMeetsInv : Obligations.ResetMeetsInv := State.reset_inv

/-! ### Every step answers a next state, or refuses a load -/

theorem State.settle_answers (s : State) (r : Except FaultRecord State) : ∃ t, s.settle r = .next t := by
  rcases s.settle_cases r with ⟨t, -, h⟩ | ⟨f, -, h⟩
  · exact ⟨t, h⟩
  · exact ⟨s.raise f, h⟩

theorem exec_answers (i : Instr) {s : State} (hsp : s.sp.toNat ≤ 15) : ∃ t, exec i s = .next t := by
  cases i
  case ret =>
    rcases s.returnFromCall_cases with ⟨_, hs⟩ | ⟨_, hs⟩ | ⟨hbad, _⟩
    · exact ⟨_, hs⟩
    · exact ⟨_, hs⟩
    · omega
  case call nnn =>
    rcases s.callTo_cases (zext16 nnn) with ⟨_, hs⟩ | ⟨_, hs⟩ | ⟨hbad, _⟩
    · exact ⟨_, hs⟩
    · exact ⟨_, hs⟩
    · omega
  case drw | skp | sknp | ldFVx | ldBVx | ldMiVx | ldVxMi => exact State.settle_answers ..
  all_goals exact ⟨_, rfl⟩

theorem instrTick_answers {s : State} (hsp : s.sp.toNat ≤ 15) : ∃ t, instrTick s = .next t := by
  rcases instrTick_cases s with ⟨-, hs⟩ | ⟨-, -, hs⟩ | ⟨-, -, hs⟩
  · exact ⟨_, hs⟩
  · exact ⟨_, hs⟩
  · rw [hs]
    cases decodeBytes (s.byteAt s.pc.toNat) (s.byteAt (s.pc.toNat + 1)) with
    | instr i => exact exec_answers i hsp
    | unsupported h1 h2 h3 h4 => exact ⟨_, rfl⟩

/-- Settles O9: an event other than a load is handled with a next state, and a load exactly when its ROM fits. -/
theorem stepOnlyRefusesLargeRom : Obligations.StepOnlyRefusesLargeRom := by
  intro s hsp
  unfold step
  cases he : s.nextEvent with
  | instrTick => exact .inl (instrTick_answers (s := s.consumeEvent) hsp)
  | timerTick | renderTick | press k | release k => exact .inl ⟨_, rfl⟩
  | load rom =>
    rcases s.consumeEvent.load_cases rom with ⟨-, hs⟩ | ⟨hlen, hs⟩
    · exact .inl ⟨_, hs⟩
    · exact .inr ⟨rom, rfl, hlen, hs⟩

end Sys2Proof.Machine

/-! ## Fetch and decode: what a step of an active core runs -/

namespace Sys2Proof.Machine

/-- Settles O6: an active core fetches the two bytes at pc, which is in range, and executes what they decode to. -/
theorem stepRunsDecodedInstruction : Obligations.StepRunsDecodedInstruction := by
  intro s i ha he hpc hdecode
  have ha' : s.consumeEvent.active := ha
  rw [step_of_instrTick he, instrTick_active ha', s.consumeEvent.fetch_ok hpc]
  exact congrArg s.consumeEvent.execDecoded hdecode

/-! ### A placed word -/

theorem State.byteAt_writeList (s : State) {a k : Nat} {bs : List Byte} (hk : k < bs.length) :
    State.byteAt { s with mem := Memory.writeList s.font s.mem a bs } (a + k) = bs[k] := by
  refine (Memory.read_writeList bs s.mem a (a + k)).trans ?_
  rw [dif_pos (by omega)]
  congr 1
  omega

/-- A byte outside the range written is as it was (R64). -/
theorem State.byteAt_writeList_other (s : State) {a a' : Nat} {bs : List Byte} (h : a' < a ∨ a + bs.length ≤ a') :
    State.byteAt { s with mem := Memory.writeList s.font s.mem a bs } a' = s.byteAt a' := by
  refine (Memory.read_writeList bs s.mem a a').trans (dif_neg ?_)
  omega

theorem State.placeInstr_active (s : State) (w : Word) : (s.placeInstr w).active := ⟨rfl, rfl⟩

theorem State.placeInstr_nextEvent (s : State) (w : Word) : (s.placeInstr w).nextEvent = .instrTick := by
  change (if s.nextEvent = .instrTick then s.events else .instrTick :: s.events).headD .instrTick = .instrTick
  split
  next h => exact h
  next => rfl

theorem State.placeInstr_pc_le (s : State) (w : Word) : (s.placeInstr w).pc.toNat ≤ 4094 := by
  simp only [State.placeInstr]
  split
  · omega
  · decide

/-- The two bytes a placed word is fetched from are its own, the high byte first (R68). -/
theorem State.placeInstr_bytes (s : State) (w : Word) :
    (s.placeInstr w).byteAt (s.placeInstr w).pc.toNat = highByte w ∧
      (s.placeInstr w).byteAt ((s.placeInstr w).pc.toNat + 1) = lowByte w :=
  ⟨s.byteAt_writeList (bs := [highByte w, lowByte w]) (k := 0) (by simp),
    s.byteAt_writeList (bs := [highByte w, lowByte w]) (k := 1) (by simp)⟩

theorem decode_of_decodeTableWord {nbits n : Nat} {i : Instr} (h : decodeTableWord nbits n = some i) :
    decode (tableWord nbits n) = .instr i := by
  rw [decodeTableWord, decodeBytes_bytes] at h
  cases hd : decode (tableWord nbits n) with
  | instr j =>
    rw [hd] at h
    exact congrArg Decoded.instr (Option.some.inj h)
  | unsupported h1 h2 h3 h4 =>
    rw [hd] at h
    cases h

/-- Settles O7: the placement meets every premise of `stepRunsDecodedInstruction`. -/
theorem stepRunsPlacedWord : Obligations.StepRunsPlacedWord := by
  intro s nbits n i h
  obtain ⟨hhigh, hlow⟩ := s.placeInstr_bytes (tableWord nbits n)
  refine stepRunsDecodedInstruction _ i (s.placeInstr_active _) (s.placeInstr_nextEvent _) (s.placeInstr_pc_le _) ?_
  rw [State.withFetchWord, hhigh, hlow, decodeBytes_bytes, decode_of_decodeTableWord h]

/-! ### The two checks before execution -/

theorem rejectWord_wordOfBytes (b0 b1 : Byte) : rejectWord (wordOfBytes b0 b1) =
    .unsupported (b0.extractLsb' 4 4) (b0.extractLsb' 0 4) (b1.extractLsb' 4 4) (b1.extractLsb' 0 4) := by
  have h0 := b0.isLt
  have h1 := b1.isLt
  have hw : (wordOfBytes b0 b1).toNat = b0.toNat * 256 + b1.toNat := toNat_append8 b0 b1
  simp only [rejectWord, Decoded.unsupported.injEq, ← BitVec.toNat_inj, fieldH1_toNat, fieldX_toNat, fieldY_toNat,
    fieldN_toNat, hw, BitVec.extractLsb'_toNat, Nat.shiftRight_eq_div_pow]
  omega

/-- Two bytes that decode to no instruction are rejected with their four nibbles (R97). -/
theorem decodeBytes_of_no_instr {b0 b1 : Byte} (h : ∀ i, decodeBytes b0 b1 ≠ .instr i) : decodeBytes b0 b1 =
    .unsupported (b0.extractLsb' 4 4) (b0.extractLsb' 0 4) (b1.extractLsb' 4 4) (b1.extractLsb' 0 4) := by
  rcases decode_sound (wordOfBytes b0 b1) with ⟨i, hi, -⟩ | hreject
  · exact absurd hi (h i)
  · exact hreject.trans (rejectWord_wordOfBytes b0 b1)

/-- Settles O8: the fetch check comes first and sees pc alone; then the decoder rejects with the nibbles. -/
theorem fetchAndDecodeFaults : Obligations.FetchAndDecodeFaults := by
  intro s ha he
  refine ⟨step_fetchOutOfRange ha he, fun hpc => ?_⟩
  intro b0 b1 hno
  have ha' : s.consumeEvent.active := ha
  rw [step_of_instrTick he, instrTick_active ha', s.consumeEvent.fetch_ok hpc]
  exact congrArg s.consumeEvent.execDecoded (decodeBytes_of_no_instr hno)

/-! ### Faults are precise -/

/-- An instruction tick of an unhalted core that leaves a fault has changed FAULT alone (R252, R253, R254). -/
theorem instrTick_fault {s t : State} (hnone : s.fault = none) (h : instrTick s = .next t) (hf : t.fault ≠ none) :
    ∃ f, t = s.raise f ∧ (f.code = 1 ∨ f.code = 2 ∨
      ∃ i, decodeBytes (s.byteAt s.pc.toNat) (s.byteAt (s.pc.toNat + 1)) = .instr i ∧ f.code = mayRaise i) := by
  obtain rfl | ⟨f, rfl, hcode | hcode⟩ | ⟨i, -, hd, hexec⟩ := instrTick_inv h
  · exact absurd hnone hf
  · exact ⟨f, rfl, .inl hcode⟩
  · exact ⟨f, rfl, .inr (.inl hcode)⟩
  · rcases exec_effect hexec with ⟨f, rfl, hcode⟩ | hparts
    · exact ⟨f, rfl, .inr (.inr ⟨i, hd, hcode⟩)⟩
    · have hkept : t.fault = s.fault := UnchangedExcept.of_withParts hparts .fault (fault_notMem_mayWrite i)
      exact absurd (hkept.trans hnone) hf

theorem State.unlessHalted_fault {s t : State} (ht : t.fault = s.fault) : (s.unlessHalted t).fault = s.fault := by
  unfold State.unlessHalted
  split
  · rfl
  · exact ht

theorem State.pressKey_fault (s : State) (k : Key) : (s.pressKey k).fault = s.fault := by
  unfold State.pressKey
  split <;> rfl

/-- Only an instruction tick and a load write FAULT. -/
theorem handle_fault_eq {e : Event} {s t : State} (hi : e ≠ .instrTick) (hl : ∀ rom, e ≠ .load rom)
    (h : handle e s = .next t) : t.fault = s.fault := by
  cases e with
  | instrTick => exact absurd rfl hi
  | timerTick => exact Host.Outcome.next.inj h ▸ State.unlessHalted_fault rfl
  | renderTick => exact Host.Outcome.next.inj h ▸ rfl
  | press k => exact Host.Outcome.next.inj h ▸ State.unlessHalted_fault (s.pressKey_fault k)
  | release k => exact Host.Outcome.next.inj h ▸ State.unlessHalted_fault rfl
  | load rom => exact absurd rfl (hl rom)

/-- Settles O14: no event but an instruction tick sets FAULT, and an instruction tick that does has changed nothing
else. -/
theorem faultsArePrecise : Obligations.FaultsArePrecise := by
  intro s t hnone hload h hf
  by_cases he : s.nextEvent = .instrTick
  · rw [step_of_instrTick he] at h
    exact ⟨he, instrTick_fault (s := s.consumeEvent) hnone h hf⟩
  · exact absurd ((handle_fault_eq he hload h).trans hnone) hf

end Sys2Proof.Machine

/-! ## Load and reset -/

namespace Sys2Proof.Machine

theorem Memory.read_nil (font : Vector Byte 80) (a : Nat) :
    Memory.read font [] a = if h : a < 80 then font[a] else 0 := rfl

theorem getD_of_lt {l : List Byte} {k : Nat} (h : k < l.length) : l.getD k 0 = l[k] := by
  rw [List.getD_eq_getElem?_getD, List.getElem?_eq_getElem h, Option.getD_some]

theorem getD_of_le {l : List Byte} {k : Nat} (h : l.length ≤ k) : l.getD k 0 = 0 := by
  rw [List.getD_eq_getElem?_getD, List.getElem?_eq_none h, Option.getD_none]

/-- Settles O13: the ROM is written over the reset contents of memory, and a longer one is refused. -/
theorem loadRestartsCore : Obligations.LoadRestartsCore := by
  intro s rom
  rcases s.load_cases rom with ⟨hlen, hs⟩ | ⟨hlen, hs⟩
  · refine ⟨fun _ => ⟨_, hs, fun a => ?_, ?_, rfl, rfl, rfl⟩, fun hbig => absurd hlen (by omega)⟩
    · refine (Memory.read_writeList rom [] 0x200 a).trans ?_
      by_cases ha : 0x200 ≤ a ∧ a < 0x200 + rom.length
      · rw [dif_pos (by omega), if_pos ha, getD_of_lt]
      · rw [dif_neg (by omega), if_neg ha, Memory.read_nil]
    · intro p hp
      cases p
      case mem | font | draws | events => simp at hp
      all_goals rfl
  · exact ⟨fun hfits => absurd hfits (by omega), fun _ => hs⟩

/-- The reset memory reads as FONT and zeros, for the default of FONT (R65, R67). -/
theorem State.byteAt_reset (a : Nat) : State.reset.byteAt a = Config.defaultFontBytes.getD a 0 := by
  refine (Memory.read_nil _ a).trans ?_
  have hlen : Config.defaultFontBytes.length = 80 := rfl
  split
  next h => exact (getD_of_lt (hlen.symm ▸ h)).symm
  next h => exact (getD_of_le (by omega)).symm

/-- Settles O12: every element is a constant, or one value at every place. -/
theorem resetState : Obligations.ResetState := by
  refine ⟨rfl, State.byteAt_reset, fun x => ?v, rfl, rfl, fun k => ?stack, rfl, rfl, Framebuffer.cell_dark,
    fun k => ?keys, ⟨rfl, rfl⟩, rfl⟩
  case v => exact Vector.getElem_replicate ..
  case stack => exact Vector.getElem_replicate ..
  case keys => exact Vector.getElem_replicate ..

end Sys2Proof.Machine

/-! ## Events, one and many -/

namespace Sys2Proof.Machine

theorem handle_timerTick {s : State} (h : s.fault = none) : handle .timerTick s = .next s.countDown := by
  rw [handle, State.unlessHalted_running h]

theorem handle_press {s : State} (h : s.fault = none) (k : Key) : handle (.press k) s = .next (s.pressKey k) := by
  rw [handle, State.unlessHalted_running h]

theorem State.countDown_frame (s : State) : UnchangedExcept [.dt, .st, .buzz] s s.countDown := .of_withParts rfl

/-- A timer counts down by one and stops at 0 (R229). -/
theorem toNat_countedDown (b : Byte) : (if b.toNat > 0 then b - 1 else b).toNat = b.toNat - 1 := by
  split <;> bv_omega

/-- Settles O19: each timer counts down by itself, and BUZZ is computed from ST as it stood before. -/
theorem timerTickEvent : Obligations.TimerTickEvent := fun s h =>
  ⟨s.countDown, handle_timerTick h, toNat_countedDown s.dt, toNat_countedDown s.st, decide_eq_true_iff,
    s.countDown_frame⟩

/-! ### Press -/

theorem State.keyDown_pressKey (s : State) (k j : Key) :
    (s.pressKey k).keyDown j = true ↔ j = k ∨ s.keyDown j = true := by
  have hkeys : (s.pressKey k).keys = (s.setKey k true).keys := by
    unfold State.pressKey
    split <;> rfl
  have hdown : (s.pressKey k).keyDown j = (s.setKey k true).keyDown j := by simp only [State.keyDown, hkeys]
  rw [hdown, s.keyDown_setKey]
  by_cases h : j = k <;> simp [h]

theorem State.pressKey_running {s : State} (h : s.wait = .running) (k : Key) : s.pressKey k = s.setKey k true := by
  simp only [State.pressKey, h]

theorem State.pressKey_awaiting {s : State} {r : Reg} (h : s.wait = .awaitingKey r) (k : Key) :
    s.pressKey k = { (s.setKey k true).setReg r (k.setWidth 8) with wait := .running } := by
  simp only [State.pressKey, h]

/-- Settles O17: a press of a running core sets the key alone; of a waiting one, also the awaited register and WAIT. -/
theorem pressEvent : Obligations.PressEvent := by
  intro k s hf
  refine ⟨s.pressKey k, handle_press hf k, s.keyDown_pressKey k, fun hrun => ?_, fun r hwait => ?_⟩
  · rw [State.pressKey_running hrun]
    exact s.setKey_frame k true
  · rw [State.pressKey_awaiting hwait]
    refine ⟨?_, fun z hz => (s.setKey k true).reg_setReg_other hz _, rfl, .of_withParts rfl⟩
    have hreg := (s.setKey k true).reg_setReg_same r (k.setWidth 8)
    refine (congrArg BitVec.toNat hreg).trans ?_
    exact BitVec.toNat_setWidth_of_le (by decide)

/-! ### Sequences of events -/

/-- What every admitted event keeps, going through with a next state, every sequence of admitted events keeps. -/
theorem handleAll_keeps {Admitted : Event → Prop} {P : State → Prop}
    (hstep : ∀ e s, Admitted e → P s → ∃ t, handle e s = .next t ∧ P t) (es : List Event) (s : State)
    (hes : ∀ e ∈ es, Admitted e) (hs : P s) : ∃ t, handleAll es s = .next t ∧ P t := by
  induction es generalizing s with
  | nil => exact ⟨s, rfl, hs⟩
  | cons e es ih =>
    obtain ⟨he, hes⟩ := List.forall_mem_cons.mp hes
    obtain ⟨t, ht, hPt⟩ := hstep e s he hs
    obtain ⟨u, hu, hPu⟩ := ih t hes hPt
    exact ⟨u, by simp only [handleAll, ht, hu], hPu⟩

theorem handle_halted {e : Event} {s : State} (h : s.fault ≠ none) (hl : ∀ rom, e ≠ .load rom) :
    handle e s = .next s := by
  cases e with
  | instrTick => exact instrTick_halted h
  | timerTick | press | release => exact congrArg _ (State.unlessHalted_halted h _)
  | renderTick => rfl
  | load rom => exact absurd rfl (hl rom)

/-- Settles O15: every event but a load answers the halted state itself. -/
theorem haltedIgnoresEvents : Obligations.HaltedIgnoresEvents := by
  intro es s hf hes
  have hstep : ∀ e t, (∀ rom, e ≠ Event.load rom) → t = s → ∃ u, handle e t = .next u ∧ u = s := by
    rintro e _ hl rfl
    exact ⟨_, handle_halted hf hl, rfl⟩
  obtain ⟨t, ht, rfl⟩ := handleAll_keeps hstep es s hes rfl
  exact ht

/-- What a tick of the timers and the key events may change, beside WAIT and V at a press of a waiting core. -/
abbrev eventParts : List Part := [.dt, .st, .buzz, .keys]

/-- An event that is no instruction tick and no load writes timers, tone and keys alone, unless a press ends a wait. -/
theorem handle_eventParts {e : Event} {s : State} (hf : s.fault = none) (hi : e ≠ .instrTick)
    (hl : ∀ rom, e ≠ .load rom) (hp : s.wait = .running ∨ ∀ k, e ≠ .press k) :
    ∃ t, handle e s = .next t ∧ UnchangedExcept eventParts s t := by
  cases e with
  | instrTick => exact absurd rfl hi
  | timerTick => exact ⟨_, handle_timerTick hf, s.countDown_frame.mono (by simp)⟩
  | renderTick => exact ⟨s, rfl, .refl _ s⟩
  | press k =>
    have hrun : s.wait = .running := hp.resolve_right fun h => h k rfl
    refine ⟨_, handle_press hf k, ?_⟩
    rw [State.pressKey_running hrun]
    exact (s.setKey_frame k true).mono (by simp)
  | release k => exact ⟨_, handle_release hf k, (s.setKey_frame k false).mono (by simp)⟩
  | load rom => exact absurd rfl (hl rom)

/-- Settles O16: FAULT and WAIT are among the parts no admitted event changes, so each next event finds the core
suspended again. -/
theorem onlyPressEndsWait : Obligations.OnlyPressEndsWait := by
  intro es s r hf hw hes
  refine handleAll_keeps (P := UnchangedExcept eventParts s) ?_ es s hes (.refl _ s)
  rintro e t ⟨hp, hl⟩ hst
  have hft : t.fault = none := (hst .fault (by simp)).trans hf
  have hwt : t.wait = .awaitingKey r := (hst .wait (by simp)).trans hw
  by_cases hi : e = .instrTick
  · subst hi
    exact ⟨t, instrTick_suspended (by simp [hwt]), hst⟩
  · obtain ⟨u, hu, htu⟩ := handle_eventParts hft hi hl (.inr hp)
    exact ⟨u, hu, hst.trans htu⟩

/-! ### A jump to itself -/

theorem exec_jp (nnn : Addr12) (s : State) : exec (.jp nnn) s = .next (s.setPc (zext16 nnn)) := rfl

/-- An ended run is seen from FAULT, WAIT, pc and memory. -/
theorem State.ended_of_eventParts {s t : State} (hs : s.ended) (h : UnchangedExcept eventParts s t) : t.ended := by
  obtain ⟨⟨hf, hw⟩, hpc, nnn, hd, hn⟩ := hs
  have hpct : t.pc = s.pc := h .pc (by simp)
  have hmem : ∀ a, t.byteAt a = s.byteAt a := h .mem (by simp)
  refine ⟨⟨(h .fault (by simp)).trans hf, (h .wait (by simp)).trans hw⟩, ?_⟩
  rw [hpct, hmem, hmem]
  exact ⟨hpc, nnn, hd, hn⟩

/-- The instruction tick of an ended run executes the jump, which writes into pc the value it holds (R122, R305). -/
theorem instrTick_ended {s : State} (h : s.ended) : instrTick s = .next s := by
  obtain ⟨ha, hpc, nnn, hd, hn⟩ := h
  have htarget : zext16 nnn = s.pc := BitVec.eq_of_toNat_eq ((zext16_toNat nnn).trans hn)
  rw [instrTick_active ha, s.fetch_ok hpc]
  refine (congrArg s.execDecoded hd).trans ?_
  rw [State.execDecoded_instr, exec_jp, htarget]
  rfl

/-- Settles O26: an instruction tick leaves the state as it is, and every other event leaves what makes it ended. -/
theorem selfJumpEndsRun : Obligations.SelfJumpEndsRun := by
  intro es s hs hes
  have hkeeps : ∃ t, handleAll es s = .next t ∧ UnchangedExcept eventParts s t := by
    refine handleAll_keeps ?_ es s hes (.refl _ s)
    intro e t hl hst
    have hend : t.ended := State.ended_of_eventParts hs hst
    by_cases hi : e = .instrTick
    · subst hi
      exact ⟨t, instrTick_ended hend, hst⟩
    · obtain ⟨⟨hf, hw⟩, -⟩ := hend
      obtain ⟨u, hu, htu⟩ := handle_eventParts hf hi hl (.inl hw)
      exact ⟨u, hu, hst.trans htu⟩
  obtain ⟨t, ht, hst⟩ := hkeeps
  exact ⟨t, ht, State.ended_of_eventParts hs hst, hst⟩

/-! ### The render tick -/

theorem snapshotOf_renderTick (s : State) : snapshotOf .renderTick s = if s.fault = none then some s.fb else none := by
  by_cases h : s.fault = none
  · simp [snapshotOf, h, State.halted_of_none]
  · simp [snapshotOf, h, State.halted_of_ne_none]

/-- A render tick put anywhere in a sequence changes no answer (R262). -/
theorem handleAll_insert_renderTick (es es' : List Event) (s : State) :
    handleAll (es ++ .renderTick :: es') s = handleAll (es ++ es') s := by
  induction es generalizing s with
  | nil => rfl
  | cons e es ih => simp only [List.cons_append, handleAll, ih]

/-- Settles O20: a render tick's answer is the state itself. -/
theorem renderTickOnlyObserves : Obligations.RenderTickOnlyObserves :=
  ⟨snapshotOf_renderTick, handleAll_insert_renderTick⟩

end Sys2Proof.Machine

/-! ## Jump, call and return -/

namespace Sys2Proof.Machine

theorem exec_ret (s : State) : exec .ret s = s.returnFromCall := rfl

theorem exec_call (nnn : Addr12) (s : State) : exec (.call nnn) s = s.callTo (zext16 nnn) := rfl

/-- Settles O25: zero extension keeps the value of nnn, and `setPc` writes pc alone. -/
theorem jpJumps : Obligations.JpJumps := fun nnn s =>
  ⟨decode_encode (.jp nnn), _, exec_jp nnn s, zext16_toNat nnn, s.setPc_frame _⟩

/-- The whole effect of a return from a stack that is not empty (R121). -/
theorem exec_ret_pops {s : State} (h0 : 0 < s.sp.toNat) (h15 : s.sp.toNat ≤ 15) :
    ∃ t, exec .ret s = .next t ∧ (∀ k : Fin 16, k.val + 1 = s.sp.toNat → t.pc = s.stack[k] + 2) ∧
      t.sp = s.sp - 1 ∧ UnchangedExcept [.pc, .sp] s t := by
  rcases s.returnFromCall_cases with ⟨hbad, _⟩ | ⟨_, hs⟩ | ⟨hbad, _⟩
  · omega
  · refine ⟨_, (exec_ret s).trans hs, fun k hk => ?_, rfl, .of_withParts rfl⟩
    simp only [← hk, Nat.add_sub_cancel, Fin.getElem_fin]
  · omega

/-- Settles O24: the entry popped is the one below SP, and 0 < SP keeps SP - 1 from wrapping. -/
theorem retReturnsAfterCall : Obligations.RetReturnsAfterCall := by
  refine ⟨decode_encode .ret, fun s h0 h15 => ?_⟩
  obtain ⟨t, ht, hpc, hsp, hframe⟩ := exec_ret_pops h0 h15
  refine ⟨t, ht, hpc, ?_, hframe⟩
  rw [hsp]
  bv_omega

/-- The whole effect of a call below a full stack (R123). -/
theorem exec_call_pushes (nnn : Addr12) {s : State} (h : s.sp.toNat < 15) :
    ∃ t, exec (.call nnn) s = .next t ∧ (∀ k : Fin 16, t.stack[k] = if k.val = s.sp.toNat then s.pc else s.stack[k]) ∧
      t.sp = s.sp + 1 ∧ t.pc = zext16 nnn ∧ UnchangedExcept [.pc, .sp, .stack] s t := by
  rcases s.callTo_cases (zext16 nnn) with ⟨_, hs⟩ | ⟨hbad, _⟩ | ⟨hbad, _⟩
  · refine ⟨_, (exec_call nnn s).trans hs, fun k => ?_, rfl, rfl, .of_withParts rfl⟩
    simp only [Fin.getElem_fin, Vector.getElem_set, eq_comm]
  · omega
  · omega

theorem toNat_sp_add_one {b : Byte} (h : b.toNat < 15) : (b + 1).toNat = b.toNat + 1 := by bv_omega

/-- Settles O27: SP is below 15, so SP + 1 does not wrap, and the pushed value is pc itself. -/
theorem callPushesItsAddress : Obligations.CallPushesItsAddress := by
  intro nnn s h
  obtain ⟨t, ht, hstack, hsp, hpc, hframe⟩ := exec_call_pushes nnn h
  have hsp' : t.sp.toNat = s.sp.toNat + 1 := hsp ▸ toNat_sp_add_one h
  have hpc' : t.pc.toNat = nnn.toNat := hpc ▸ zext16_toNat nnn
  exact ⟨decode_encode (.call nnn), t, ht, hstack, hsp', hpc', hframe⟩

/-- Settles O28: the three ranges of SP shut each other out. -/
theorem stackFaults : Obligations.StackFaults := by
  intro nnn s
  rw [exec_call, exec_ret]
  refine ⟨fun h => ?_, fun h => ?_, fun h => ⟨?_, ?_⟩⟩
  · rcases s.callTo_cases (zext16 nnn) with ⟨hbad, _⟩ | ⟨_, hs⟩ | ⟨hbad, _⟩
    · omega
    · exact hs
    · omega
  · rcases s.returnFromCall_cases with ⟨_, hs⟩ | ⟨hbad, _⟩ | ⟨hbad, _⟩
    · exact hs
    · omega
    · omega
  · rcases s.callTo_cases (zext16 nnn) with ⟨hbad, _⟩ | ⟨hbad, _⟩ | ⟨_, hs⟩
    · omega
    · omega
    · exact hs
  · rcases s.returnFromCall_cases with ⟨hbad, _⟩ | ⟨hbad, _⟩ | ⟨_, hs⟩
    · omega
    · omega
    · exact hs

/-- Settles O29: the return reads the entry the call wrote, at the SP of before the call. -/
theorem returnUndoesCall : Obligations.ReturnUndoesCall := by
  intro nnn s h
  obtain ⟨t, ht, hstack, hsp, -, -⟩ := exec_call_pushes nnn h
  refine ⟨t, ht, fun u hu hust => ?_⟩
  have husp : u.sp.toNat = s.sp.toNat + 1 := by rw [hu, hsp, toNat_sp_add_one h]
  obtain ⟨w, hw, hwpc, hwsp, hframe⟩ := exec_ret_pops (s := u) (by omega) (by omega)
  refine ⟨w, hw, ?_, ?_, hframe⟩
  · rw [hwpc ⟨s.sp.toNat, by omega⟩ husp.symm, hust, hstack, if_pos rfl]
  · rw [hwsp, hu, hsp, BitVec.add_sub_cancel]

end Sys2Proof.Machine

/-! ## Logic, and the instructions that write a register and the flag -/

namespace Sys2Proof.Machine

theorem exec_or (x y : Reg) (s : State) : exec (.or x y) s = .next (s.setReg x (s.reg x ||| s.reg y)).advance := rfl

theorem exec_and (x y : Reg) (s : State) : exec (.and x y) s = .next (s.setReg x (s.reg x &&& s.reg y)).advance := rfl

theorem exec_xor (x y : Reg) (s : State) : exec (.xor x y) s = .next (s.setReg x (s.reg x ^^^ s.reg y)).advance := rfl

/-- Settles O36: the register written is the bitwise combination of the two bytes. -/
theorem logicKeepsVF : Obligations.LogicKeepsVF := by
  intro x y s
  obtain ⟨t, ht, hx, hrest⟩ := exec_setReg_advance (exec_or x y s)
  obtain ⟨u, hu, hx', hrest'⟩ := exec_setReg_advance (exec_and x y s)
  obtain ⟨w, hw, hx'', hrest''⟩ := exec_setReg_advance (exec_xor x y s)
  exact ⟨decode_encode (.or x y), decode_encode (.and x y), decode_encode (.xor x y),
    ⟨t, ht, fun b => by rw [hx, BitVec.getLsbD_or], hrest⟩,
    ⟨u, hu, fun b => by rw [hx', BitVec.getLsbD_and], hrest'⟩,
    ⟨w, hw, fun b => by rw [hx'', BitVec.getLsbD_xor], hrest''⟩⟩

theorem exec_addVxVy (x y : Reg) (s : State) : exec (.addVxVy x y) s =
    .next (s.write2 x (s.reg x + s.reg y) (carryFlag (s.reg x) (s.reg y))).advance := rfl

theorem exec_sub (x y : Reg) (s : State) : exec (.sub x y) s =
    .next (s.write2 x (s.reg x - s.reg y) (noBorrowFlag (s.reg x) (s.reg y))).advance := rfl

theorem exec_subn (x y : Reg) (s : State) : exec (.subn x y) s =
    .next (s.write2 x (s.reg y - s.reg x) (noBorrowFlag (s.reg y) (s.reg x))).advance := rfl

theorem exec_shr (x y : Reg) (s : State) : exec (.shr x y) s =
    .next (s.write2 x (s.reg x >>> 1) (shiftedOutRight (s.reg x))).advance := rfl

theorem exec_shl (x y : Reg) (s : State) : exec (.shl x y) s =
    .next (s.write2 x (s.reg x <<< 1) (shiftedOutLeft (s.reg x))).advance := rfl

/-- The whole effect of an instruction that is "`write2` of x, not F, then pc <- pc + 2" (R163). -/
theorem exec_write2_advance {i : Instr} {s : State} {x : Reg} {r f : Byte} (hx : x ≠ VF)
    (h : exec i s = .next (s.write2 x r f).advance) :
    ∃ t, exec i s = .next t ∧ t.reg x = r ∧ t.reg VF = f ∧ (∀ z, z ≠ x → z ≠ VF → t.reg z = s.reg z) ∧
      t.pc = s.pc + 2 ∧ UnchangedExcept [.v, .pc] s t := by
  rw [s.write2_ne hx] at h
  refine ⟨_, h, ?dest, ?flag, fun z hzx hzF => ?others, rfl, .of_withParts rfl⟩
  case dest => rw [State.reg_advance, State.reg_setReg_other _ hx, State.reg_setReg_same]
  case flag => rw [State.reg_advance, State.reg_setReg_same]
  case others => rw [State.reg_advance, State.reg_setReg_other _ hzF, State.reg_setReg_other _ hzx]

/-- The whole effect when the destination is VF itself: a free byte, and one draw counted (R163; decision D10). -/
theorem exec_write2_VF_advance {i : Instr} {s : State} {r f : Byte} (h : exec i s = .next (s.write2 VF r f).advance) :
    ∃ t, exec i s = .next t ∧ t.reg VF = Config.draw8 s.draws ∧ (∀ z, z ≠ VF → t.reg z = s.reg z) ∧
      t.draws = s.draws + 1 ∧ t.pc = s.pc + 2 ∧ UnchangedExcept [.v, .pc, .draws] s t := by
  rw [s.write2_VF] at h
  exact ⟨_, h, s.reg_setReg_same VF s.draw, fun z hz => s.reg_setReg_other hz s.draw, rfl, rfl, .of_withParts rfl⟩

/-! ### The values of the flags (R150) -/

theorem flagByte_decide_toNat (p : Prop) [Decidable p] : (flagByte (decide p)).toNat = if p then 1 else 0 := by
  by_cases h : p <;> simp [flagByte, h]

theorem carryFlag_toNat (a b : Byte) : (carryFlag a b).toNat = if 256 ≤ a.toNat + b.toNat then 1 else 0 :=
  flagByte_decide_toNat _

theorem noBorrowFlag_toNat (a b : Byte) : (noBorrowFlag a b).toNat = if b.toNat ≤ a.toNat then 1 else 0 :=
  flagByte_decide_toNat _

/-- Bit k of a byte as the flag it becomes. -/
theorem flagByte_getLsbD_toNat (a : Byte) (k : Nat) : (flagByte (a.getLsbD k)).toNat = a.toNat / 2 ^ k % 2 := by
  rw [← BitVec.testBit_toNat, Nat.testBit_eq_decide_div_mod_eq, flagByte_decide_toNat]
  split <;> omega

theorem shiftedOutRight_toNat (a : Byte) : (shiftedOutRight a).toNat = a.toNat % 2 := by
  rw [shiftedOutRight, flagByte_getLsbD_toNat, Nat.pow_zero, Nat.div_one]

theorem shiftedOutLeft_toNat (a : Byte) : (shiftedOutLeft a).toNat = a.toNat / 128 := by
  have := a.isLt
  rw [shiftedOutLeft, flagByte_getLsbD_toNat]
  omega

/-- The difference of two bytes modulo 256, by whether there is a borrow. -/
theorem toNat_sub_byte (a b : Byte) :
    (a - b).toNat = if b.toNat ≤ a.toNat then a.toNat - b.toNat else a.toNat + 256 - b.toNat := by
  split <;> bv_omega

/-- Settles O37: `write2` takes the sum and the carry, both of the values before. -/
theorem addVxVySetsCarry : Obligations.AddVxVySetsCarry := by
  intro x y s hx
  obtain ⟨t, ht, hres, hflag, hrest⟩ := exec_write2_advance hx (exec_addVxVy x y s)
  exact ⟨decode_encode (.addVxVy x y), t, ht, hres ▸ BitVec.toNat_add .., hflag ▸ carryFlag_toNat .., hrest⟩

/-- Settles O38: as O37, with the difference and the absence of a borrow. -/
theorem subtractSetsNoBorrow : Obligations.SubtractSetsNoBorrow := by
  intro x y s hx
  obtain ⟨t, ht, hres, hflag, hrest⟩ := exec_write2_advance hx (exec_sub x y s)
  obtain ⟨u, hu, hres', hflag', hrest'⟩ := exec_write2_advance hx (exec_subn x y s)
  exact ⟨decode_encode (.sub x y), decode_encode (.subn x y),
    ⟨t, ht, hres ▸ toNat_sub_byte .., hflag ▸ noBorrowFlag_toNat .., hrest⟩,
    ⟨u, hu, hres' ▸ toNat_sub_byte .., hflag' ▸ noBorrowFlag_toNat .., hrest'⟩⟩

theorem toNat_shiftRight_one (a : Byte) : (a >>> 1).toNat = a.toNat / 2 := by
  rw [BitVec.toNat_ushiftRight, Nat.shiftRight_eq_div_pow, Nat.pow_one]

theorem toNat_shiftLeft_one (a : Byte) : (a <<< 1).toNat = 2 * a.toNat % 256 := by
  rw [BitVec.toNat_shiftLeft, Nat.shiftLeft_eq, Nat.pow_one, Nat.mul_comm]

/-- Settles O39: `write2` takes the shifted byte and the bit shifted out; y is not read. -/
theorem shiftsMoveVxByOne : Obligations.ShiftsMoveVxByOne := by
  intro x y s hx
  obtain ⟨t, ht, hres, hflag, hrest⟩ := exec_write2_advance hx (exec_shr x y s)
  obtain ⟨u, hu, hres', hflag', hrest'⟩ := exec_write2_advance hx (exec_shl x y s)
  exact ⟨decode_encode (.shr x y), decode_encode (.shl x y),
    ⟨t, ht, hres ▸ toNat_shiftRight_one _, hflag ▸ shiftedOutRight_toNat _, hrest⟩,
    ⟨u, hu, hres' ▸ toNat_shiftLeft_one _, hflag' ▸ shiftedOutLeft_toNat _, hrest'⟩⟩

/-- Settles O40: with x = F `write2` drops result and flag, whichever of the five instructions computed them. -/
theorem flagClashLeavesFreeByte : Obligations.FlagClashLeavesFreeByte := by
  intro y s i hi
  simp only [List.mem_cons, List.not_mem_nil, or_false] at hi
  rcases hi with rfl | rfl | rfl | rfl | rfl
  · exact exec_write2_VF_advance (exec_addVxVy VF y s)
  · exact exec_write2_VF_advance (exec_sub VF y s)
  · exact exec_write2_VF_advance (exec_shr VF y s)
  · exact exec_write2_VF_advance (exec_subn VF y s)
  · exact exec_write2_VF_advance (exec_shl VF y s)

theorem exec_rnd (x : Reg) (kk : Byte) (s : State) :
    exec (.rnd x kk) s = .next (s.setReg x (s.draw &&& kk)).countDraw.advance := rfl

/-- Settles O41: the register written is the free byte under the mask, whose bits are those of both. -/
theorem rndStaysUnderMask : Obligations.RndStaysUnderMask := by
  intro x kk s
  have hx : (s.setReg x (s.draw &&& kk)).countDraw.advance.reg x = Config.draw8 s.draws &&& kk :=
    s.reg_setReg_same x _
  refine ⟨decode_encode (.rnd x kk), _, exec_rnd x kk s, fun b => ?bits, fun hkk => ?zero,
    fun z hz => s.reg_setReg_other hz _, rfl, rfl, .of_withParts rfl⟩
  case bits => rw [hx, BitVec.getLsbD_and]
  case zero =>
    rw [hx, hkk]
    exact BitVec.and_zero

end Sys2Proof.Machine

/-! ## Keys, timers and the index register -/

namespace Sys2Proof.Machine

theorem exec_skp (x : Reg) (s : State) :
    exec (.skp x) s = s.settle ((keyOperand (s.reg x)).map fun k => s.skipIf (s.keyDown k)) := rfl

theorem exec_sknp (x : Reg) (s : State) :
    exec (.sknp x) s = s.settle ((keyOperand (s.reg x)).map fun k => s.skipIf (!s.keyDown k)) := rfl

theorem keyOperand_of_toNat_eq {b : Byte} {k : Key} (h : b.toNat = k.toNat) : keyOperand b = .ok k := by
  have hk := k.isLt
  have hsame : b.setWidth 4 = k := BitVec.eq_of_toNat_eq (by rw [BitVec.toNat_setWidth, h]; omega)
  rw [keyOperand_ok (by omega), hsame]

/-- Settles O56: the operand check passes exactly for the value of a key, and a skip writes pc alone. -/
theorem skipsOnKey : Obligations.SkipsOnKey := by
  intro x s
  refine ⟨decode_encode (.skp x), decode_encode (.sknp x), fun k hk => ⟨⟨s.skipIf (s.keyDown k), ?_, ?_, ?_⟩,
    ⟨s.skipIf (!s.keyDown k), ?_, ?_, ?_⟩⟩, fun hbad => ⟨?_, ?_⟩⟩
  · rw [exec_skp, keyOperand_of_toNat_eq hk]
    rfl
  · cases h : s.keyDown k <;> rfl
  · exact s.skipIf_frame _
  · rw [exec_sknp, keyOperand_of_toNat_eq hk]
    rfl
  · cases h : s.keyDown k <;> rfl
  · exact s.skipIf_frame _
  · rw [exec_skp, keyOperand_bad hbad]
    rfl
  · rw [exec_sknp, keyOperand_bad hbad]
    rfl

theorem exec_ldVxK (x : Reg) (s : State) : exec (.ldVxK x) s = .next { s with wait := .awaitingKey x }.advance := rfl

/-- Settles O57: the state left is suspended, and a suspended core ignores instruction ticks. -/
theorem ldVxKSuspends : Obligations.LdVxKSuspends := fun x s =>
  ⟨decode_encode (.ldVxK x), _, exec_ldVxK x s, rfl, rfl, .of_withParts rfl, instrTick_suspended nofun⟩

theorem exec_ldDtVx (x : Reg) (s : State) : exec (.ldDtVx x) s = .next { s with dt := s.reg x }.advance := rfl

/-- Settles O59: the next timer tick counts the value just written down. -/
theorem ldDtVxSetsDelayTimer : Obligations.LdDtVxSetsDelayTimer := fun x s =>
  ⟨decode_encode (.ldDtVx x), _, exec_ldDtVx x s, rfl, rfl, .of_withParts rfl, fun hf =>
    ⟨_, handle_timerTick (s := { s with dt := s.reg x }.advance) hf, toNat_countedDown (s.reg x)⟩⟩

theorem exec_ldStVx (x : Reg) (s : State) : exec (.ldStVx x) s = .next { s with st := s.reg x }.advance := rfl

theorem toNat_pos_iff_ne_zero (b : Byte) : 0 < b.toNat ↔ b ≠ 0 := by
  rw [Nat.pos_iff_ne_zero, ne_eq, ne_eq, ← BitVec.toNat_inj]
  rfl

/-- Settles O60: the next timer tick finds the value just written and turns the tone on when it is not 0. -/
theorem ldStVxSetsSoundTimer : Obligations.LdStVxSetsSoundTimer := fun x s =>
  ⟨decode_encode (.ldStVx x), _, exec_ldStVx x s, rfl, rfl, .of_withParts rfl, fun hf =>
    ⟨_, handle_timerTick (s := { s with st := s.reg x }.advance) hf,
      decide_eq_true_iff.trans (toNat_pos_iff_ne_zero (s.reg x))⟩⟩

theorem exec_addIVx (x : Reg) (s : State) :
    exec (.addIVx x) s = .next { s with i := s.i + (s.reg x).setWidth 16 }.advance := rfl

theorem toNat_setWidth_byte (b : Byte) : (b.setWidth 16).toNat = b.toNat := BitVec.toNat_setWidth_of_le (by decide)

/-- Settles O43: the sum of 16-bit values is modulo 65536, and V[x] is zero-extended. -/
theorem addIVxSetsNoFlag : Obligations.AddIVxSetsNoFlag := by
  intro x s
  obtain ⟨t, ht, hi, hrest⟩ := exec_withI_advance (exec_addIVx x s)
  have hval : t.i.toNat = (s.i.toNat + (s.reg x).toNat) % 65536 := by
    rw [hi, BitVec.toNat_add, toNat_setWidth_byte]
  exact ⟨decode_encode (.addIVx x), t, ht, hval, hrest⟩

theorem exec_ldFVx (x : Reg) (s : State) :
    exec (.ldFVx x) s = s.settle ((fontAddr (s.reg x)).map fun a => { s with i := a }.advance) := rfl

/-- Settles O44: five times a digit fits in 16 bits, and a larger value does not pass the check. -/
theorem ldFVxPointsAtGlyph : Obligations.LdFVxPointsAtGlyph := by
  intro x s
  refine ⟨decode_encode (.ldFVx x), fun hdigit => ?_, fun hbad => ?_⟩
  · have h : exec (.ldFVx x) s = .next { s with i := (s.reg x).setWidth 16 * 5 }.advance := by
      rw [exec_ldFVx, fontAddr_ok hdigit]
      rfl
    obtain ⟨t, ht, hi, hrest⟩ := exec_withI_advance h
    refine ⟨t, ht, ?_, hrest⟩
    rw [hi, BitVec.toNat_mul, toNat_setWidth_byte]
    exact Nat.mod_eq_of_lt (show (s.reg x).toNat * 5 < 65536 by omega)
  · rw [exec_ldFVx, fontAddr_bad hbad]
    rfl

end Sys2Proof.Machine

/-! ## Memory transfers -/

namespace Sys2Proof.Machine

/-- Settles O51: the bytes written are read back one by one, and the write touches MEM alone. -/
theorem memoryRoundTrip : Obligations.MemoryRoundTrip := by
  intro s t a bytes h
  obtain ⟨hr, rfl⟩ := State.memWrite_inv h
  refine ⟨?_, fun a' ha' => s.byteAt_writeList_other ha', .of_withParts rfl⟩
  rw [State.memRead_ok _ hr]
  refine congrArg Except.ok (List.ext_getElem (State.bytesFrom_length ..) fun k hk hk' => ?_)
  rw [State.bytesFrom_getElem, s.byteAt_writeList hk']

/-- The whole effect of an instruction that is "MemWrite of the bytes at I, then pc <- pc + 2", in range (R64). -/
theorem exec_memWrite_advance {i : Instr} {s : State} {bs : List Byte}
    (h : exec i s = s.settle ((s.memWrite s.dataBase bs).map State.advance)) (hr : s.dataBase + bs.length ≤ 4096) :
    ∃ t, exec i s = .next t ∧ (∀ k (hk : k < bs.length), t.byteAt (s.dataBase + k) = bs[k]) ∧
      (∀ a : Nat, a < s.dataBase ∨ s.dataBase + bs.length ≤ a → t.byteAt a = s.byteAt a) ∧ t.pc = s.pc + 2 ∧
      UnchangedExcept [.mem, .pc] s t := by
  rw [s.memWrite_ok hr] at h
  exact ⟨_, h, fun k hk => s.byteAt_writeList hk, fun a ha => s.byteAt_writeList_other ha, rfl, .of_withParts rfl⟩

theorem exec_ldBVx (x : Reg) (s : State) :
    exec (.ldBVx x) s = s.settle ((s.memWrite s.dataBase (bcdDigits (s.reg x))).map State.advance) := rfl

theorem exec_ldMiVx (x : Reg) (s : State) :
    exec (.ldMiVx x) s = s.settle ((s.memWrite s.dataBase (s.regsUpTo x)).map State.advance) := rfl

theorem exec_ldVxMi (x : Reg) (s : State) : exec (.ldVxMi x) s =
    s.settle ((s.memRead s.dataBase (x.toNat + 1)).map fun bytes => (s.setRegsFrom0 bytes).advance) := rfl

theorem exec_drw (x y : Reg) (n : Nibble) (s : State) : exec (.drw x y n) s =
    s.settle ((s.memRead s.dataBase n.toNat).map fun sprite => (s.drawAt x y sprite).advance) := rfl

/-- Settles O45: the three bytes written are the decimal digits, each below 10. -/
theorem ldBVxStoresDigits : Obligations.LdBVxStoresDigits := by
  intro x s hr
  obtain ⟨t, ht, hbytes, hrest⟩ := exec_memWrite_advance (exec_ldBVx x s) hr
  have hlt := (s.reg x).isLt
  have h0 := congrArg BitVec.toNat (hbytes 0 (by simp))
  have h1 := congrArg BitVec.toNat (hbytes 1 (by simp))
  have h2 := congrArg BitVec.toNat (hbytes 2 (by simp))
  simp only [bcdDigits, List.getElem_cons_zero, List.getElem_cons_succ, BitVec.toNat_ofNat] at h0 h1 h2
  refine ⟨decode_encode (.ldBVx x), t, ht, ⟨(s.reg x).toNat / 100, (s.reg x).toNat / 10 % 10, (s.reg x).toNat % 10,
    ?_, ?_, ?_, ?_, h0.trans ?_, h1.trans ?_, h2.trans ?_⟩, hrest⟩
  all_goals omega

/-- Fx55 in range, with the bytes stored named by their registers (R184). -/
theorem exec_ldMiVx_stores {x : Reg} {s : State} (hr : s.i.toNat + x.toNat + 1 ≤ 4096) :
    ∃ t, exec (.ldMiVx x) s = .next t ∧ (∀ k : Reg, k.toNat ≤ x.toNat → t.byteAt (s.dataBase + k.toNat) = s.reg k) ∧
      (∀ a : Nat, a < s.dataBase ∨ s.dataBase + x.toNat + 1 ≤ a → t.byteAt a = s.byteAt a) ∧ t.pc = s.pc + 2 ∧
      UnchangedExcept [.mem, .pc] s t := by
  have hlen := s.regsUpTo_length x
  obtain ⟨t, ht, hbytes, hother, hrest⟩ := exec_memWrite_advance (exec_ldMiVx x s) (by rw [hlen]; exact hr)
  refine ⟨t, ht, fun k hk => ?_, fun a ha => hother a (by omega), hrest⟩
  rw [hbytes k.toNat (by omega), s.regsUpTo_getElem, BitVec.ofNat_toNat, BitVec.setWidth_eq]

/-- Settles O46: the block stored is V0 to Vx; I lies in the frame. -/
theorem ldMiVxStoresBlock : Obligations.LdMiVxStoresBlock := fun x _ hr =>
  ⟨decode_encode (.ldMiVx x), exec_ldMiVx_stores hr⟩

/-- Fx65 in range: V0 to Vx take the bytes from I on, the other registers keep theirs (R185). -/
theorem exec_ldVxMi_loads {x : Reg} {s : State} (hr : s.i.toNat + x.toNat + 1 ≤ 4096) :
    ∃ t, exec (.ldVxMi x) s = .next t ∧
      (∀ k : Reg, t.reg k = if k.toNat ≤ x.toNat then s.byteAt (s.dataBase + k.toNat) else s.reg k) ∧
      t.pc = s.pc + 2 ∧ UnchangedExcept [.v, .pc] s t := by
  have h : exec (.ldVxMi x) s = .next (s.setRegsFrom0 (s.bytesFrom s.dataBase (x.toNat + 1))).advance := by
    rw [exec_ldVxMi, s.memRead_ok (a := s.dataBase) (n := x.toNat + 1) hr]
    rfl
  refine ⟨_, h, fun k => (s.reg_setRegsFrom0 _ k).trans ?_, rfl, .of_withParts rfl⟩
  by_cases hk : k.toNat ≤ x.toNat
  · rw [dif_pos (by rw [s.bytesFrom_length]; omega), if_pos hk, s.bytesFrom_getElem]
  · rw [dif_neg (by rw [s.bytesFrom_length]; omega), if_neg hk]

/-- Settles O47: the block loaded is the x + 1 bytes from I on; I lies in the frame. -/
theorem ldVxMiLoadsBlock : Obligations.LdVxMiLoadsBlock := fun x _ hr =>
  ⟨decode_encode (.ldVxMi x), exec_ldVxMi_loads hr⟩

/-- Settles O48: the range is checked first, whatever the instruction would do with the bytes. -/
theorem dataOutOfRangeFaults : Obligations.DataOutOfRangeFaults := by
  intro x y n s
  refine ⟨fun hr => ?drw, fun hr => ?bcd, fun hr => ⟨?store, ?load⟩⟩
  case drw =>
    rw [exec_drw, s.memRead_out (a := s.dataBase) hr]
    rfl
  case bcd =>
    rw [exec_ldBVx, s.memWrite_out hr]
    rfl
  case store =>
    rw [exec_ldMiVx, s.memWrite_out (by rw [s.regsUpTo_length]; exact hr)]
    rfl
  case load =>
    rw [exec_ldVxMi, s.memRead_out (a := s.dataBase) (n := x.toNat + 1) hr]
    rfl

/-- Settles O49: Fx55 leaves I, so Fx65 reads from the addresses stored to. -/
theorem storeThenLoadRestoresRegisters : Obligations.StoreThenLoadRestoresRegisters := by
  intro x s v' hr
  obtain ⟨t, ht, hstored, -, -, hframe⟩ := exec_ldMiVx_stores hr
  have hi : t.i = s.i := hframe .i (by simp)
  obtain ⟨u, hu, hloaded, -, -⟩ := exec_ldVxMi_loads (x := x) (s := { t with v := v' }) (hi ▸ hr)
  refine ⟨t, ht, u, hu, fun k => (hloaded k).trans ?_⟩
  split
  next hk =>
    rw [← hstored k hk, State.dataBase, State.dataBase, ← hi]
    rfl
  next => rfl

/-- Settles O50: an active core is not left by the range fault, so both bytes at pc were stored. -/
theorem storeIsSeenByNextFetch : Obligations.StoreIsSeenByNextFetch := by
  intro x k s t i hkx h ha he hpc hd
  have hx := x.isLt
  have hk1 : (k + 1).toNat = k.toNat + 1 := by bv_omega
  rcases Nat.lt_or_ge 4096 (s.i.toNat + x.toNat + 1) with hout | hr
  · have hfault := (dataOutOfRangeFaults x x 0 s).2.2 hout
    obtain rfl := Host.Outcome.next.inj (hfault.1.symm.trans h)
    cases ha.1
  · obtain ⟨t', ht', hstored, -⟩ := exec_ldMiVx_stores hr
    obtain rfl := Host.Outcome.next.inj (ht'.symm.trans h)
    have hhigh : t'.byteAt t'.pc.toNat = s.reg k := hpc ▸ hstored k (by omega)
    have hlow : t'.byteAt (t'.pc.toNat + 1) = s.reg (k + 1) := by
      rw [← hstored (k + 1) (by omega), hk1, hpc]
      rfl
    exact stepRunsDecodedInstruction t' i ha he (by omega) (by rw [hhigh, hlow, hd])

end Sys2Proof.Machine

/-! ## The sprite engine -/

namespace Sys2Proof.Machine

/-- The sprite row b, drawn from column x0 on in the row `row`, has a 1 bit for the cell (r, c) (R202). -/
def rowHits (x0 : Nat) (row : Fin 32) (b : Byte) (r : Fin 32) (c : Fin 64) : Prop :=
  r = row ∧ ∃ k ∈ [0, 1, 2, 3, 4, 5, 6, 7], c = wrapCol (x0 + k) ∧ b.getLsbD (7 - k) = true

theorem mem_columns {k : Nat} : k ∈ [0, 1, 2, 3, 4, 5, 6, 7] ↔ k < 8 := by
  simp only [List.mem_cons, List.not_mem_nil, or_false]
  omega

theorem not_spriteHits_nil (x0 y0 : Nat) (r : Fin 32) (c : Fin 64) : ¬ spriteHits x0 y0 [] r c :=
  fun ⟨_, _, _, _, _, hlt, _⟩ => Nat.not_lt_zero _ hlt

/-- A sprite hits a cell with its first row or with the rest, drawn one row lower. -/
theorem spriteHits_cons (x0 y0 : Nat) (b : Byte) (bs : List Byte) (r : Fin 32) (c : Fin 64) :
    spriteHits x0 y0 (b :: bs) r c ↔ rowHits x0 (wrapRow y0) b r c ∨ spriteHits x0 (y0 + 1) bs r c := by
  constructor
  · rintro ⟨j, k, hk, hr, hc, hj, hbit⟩
    cases j with
    | zero => exact .inl ⟨Fin.ext hr, k, mem_columns.mpr hk, Fin.ext hc, hbit⟩
    | succ j => exact .inr ⟨j, k, hk, by omega, hc, Nat.lt_of_succ_lt_succ hj, hbit⟩
  · rintro (⟨rfl, k, hk, rfl, hbit⟩ | ⟨j, k, hk, hr, hc, hj, hbit⟩)
    · exact ⟨0, k, mem_columns.mp hk, rfl, rfl, Nat.succ_pos _, hbit⟩
    · exact ⟨j + 1, k, hk, by omega, hc, Nat.succ_lt_succ hj, hbit⟩

/-- The rows of a sprite of at most 32 bytes are drawn in different rows of the framebuffer. -/
theorem not_spriteHits_of_rowHits {x0 y0 : Nat} {b : Byte} {bs : List Byte} {r : Fin 32} {c : Fin 64}
    (hlen : bs.length < 32) (h : rowHits x0 (wrapRow y0) b r c) : ¬ spriteHits x0 (y0 + 1) bs r c := by
  obtain ⟨rfl, -⟩ := h
  rintro ⟨j, -, -, hr, -, hj, -⟩
  simp only [wrapRow] at hr
  omega

theorem xor_decide_eq_true_iff (a : Bool) (p : Prop) [Decidable p] : (a ^^ decide p) = true ↔ ¬ (a = true ↔ p) := by
  by_cases h : p <;> simp [h]

theorem drawRow_cell (x0 : Nat) (row : Fin 32) (b : Byte) (d : Drawing) (r : Fin 32) (c : Fin 64) :
    (drawColumns x0 row b d [0, 1, 2, 3, 4, 5, 6, 7]).fb.cell r c = true ↔
      ¬ (d.fb.cell r c = true ↔ rowHits x0 row b r c) := by
  obtain ⟨hcell, -⟩ := drawColumns_spec x0 row b [0, 1, 2, 3, 4, 5, 6, 7] d (columns_distinct x0)
  rw [hcell]
  exact xor_decide_eq_true_iff ..

theorem drawRow_collision (x0 : Nat) (row : Fin 32) (b : Byte) (d : Drawing) :
    (drawColumns x0 row b d [0, 1, 2, 3, 4, 5, 6, 7]).collision = true ↔
      d.collision = true ∨ ∃ r c, rowHits x0 row b r c ∧ d.fb.cell r c = true := by
  obtain ⟨-, hcoll⟩ := drawColumns_spec x0 row b [0, 1, 2, 3, 4, 5, 6, 7] d (columns_distinct x0)
  rw [hcoll]
  refine or_congr_right ⟨?_, ?_⟩
  · rintro ⟨k, hk, hbit, hlit⟩
    exact ⟨row, wrapCol (x0 + k), ⟨rfl, k, hk, rfl, hbit⟩, hlit⟩
  · rintro ⟨r, c, ⟨rfl, k, hk, rfl, hbit⟩, hlit⟩
    exact ⟨k, hk, hbit, hlit⟩

/-- The rows from sprite row r on: every cell is XORed with its bit, and a 1 bit on a lit cell is a collision. That the
rows do not overlap makes "lit before this row" and "lit before the sprite" the same (R202). -/
theorem drawRows_spec (x0 y0 : Nat) (bs : List Byte) (r : Nat) (d : Drawing) (hlen : bs.length ≤ 32) :
    (∀ row col, (drawRows x0 y0 r d bs).fb.cell row col = true ↔
      ¬ (d.fb.cell row col = true ↔ spriteHits x0 (y0 + r) bs row col)) ∧
    ((drawRows x0 y0 r d bs).collision = true ↔
      d.collision = true ∨ ∃ row col, spriteHits x0 (y0 + r) bs row col ∧ d.fb.cell row col = true) := by
  induction bs generalizing r d with
  | nil => simp [drawRows, not_spriteHits_nil]
  | cons b bs ih =>
    have hlt : bs.length < 32 := hlen
    obtain ⟨ihcell, ihcoll⟩ := ih (r + 1) (drawColumns x0 (wrapRow (y0 + r)) b d [0, 1, 2, 3, 4, 5, 6, 7])
      (Nat.le_of_lt hlt)
    have hdis : ∀ row col, rowHits x0 (wrapRow (y0 + r)) b row col → ¬ spriteHits x0 (y0 + r + 1) bs row col :=
      fun _ _ => not_spriteHits_of_rowHits hlt
    constructor
    · intro row col
      rw [drawRows, ihcell, drawRow_cell, spriteHits_cons, ← Nat.add_assoc]
      have := hdis row col
      grind
    · rw [drawRows, ihcoll, drawRow_collision, or_assoc]
      refine or_congr_right ?_
      simp only [spriteHits_cons, drawRow_cell, ← Nat.add_assoc]
      constructor
      · rintro (⟨row, col, hrow, hlit⟩ | ⟨row, col, hrest, hnow⟩)
        · exact ⟨row, col, .inl hrow, hlit⟩
        · have hrow : ¬ rowHits x0 (wrapRow (y0 + r)) b row col := fun h => hdis row col h hrest
          exact ⟨row, col, .inr hrest, by grind⟩
      · rintro ⟨row, col, hrow | hrest, hlit⟩
        · exact .inl ⟨row, col, hrow, hlit⟩
        · have hrow : ¬ rowHits x0 (wrapRow (y0 + r)) b row col := fun h => hdis row col h hrest
          exact .inr ⟨row, col, hrest, by grind⟩

/-- Settles O53: `drawRows_spec` from sprite row 0, with no collision yet. -/
theorem spriteXorsAndCollides : Obligations.SpriteXorsAndCollides := by
  intro fb x0 y0 sprite hlen
  obtain ⟨hcell, hcoll⟩ := drawRows_spec x0 y0 sprite 0 { fb := fb, collision := false } (by omega)
  exact ⟨hcell, hcoll.trans (or_iff_right Bool.false_ne_true)⟩

/-- Settles O54: two exclusive ors with one bit cancel, and a hit cell is lit after the first draw exactly when it was
dark before. -/
theorem drawingTwiceRestores : Obligations.DrawingTwiceRestores := by
  intro fb x0 y0 sprite hlen first second
  obtain ⟨hfirst, -⟩ := spriteXorsAndCollides fb x0 y0 sprite hlen
  obtain ⟨hsecond, hcoll⟩ := spriteXorsAndCollides first.fb x0 y0 sprite hlen
  refine ⟨Framebuffer.ext_cell fun row col => ?_, hcoll.trans ?_⟩
  · rw [Bool.eq_iff_iff, hsecond, hfirst]
    grind
  · refine exists_congr fun row => exists_congr fun col => and_congr_right fun hhit => ?_
    rw [hfirst, ← Bool.not_eq_true]
    grind

/-- Settles O55: the bytes drawn are read at I before anything changes, the origin before VF is written, and VF takes
the collision bit. -/
theorem drwDrawsSpriteAtI : Obligations.DrwDrawsSpriteAtI := by
  intro x y n s hr
  have h : exec (.drw x y n) s = .next (s.drawAt x y (s.bytesFrom s.dataBase n.toNat)).advance := by
    rw [exec_drw, s.memRead_ok (a := s.dataBase) hr]
    rfl
  have hlen := s.bytesFrom_length s.dataBase n.toNat
  obtain ⟨hcell, hcoll⟩ := spriteXorsAndCollides s.fb (s.reg x).toNat (s.reg y).toNat (s.bytesFrom s.dataBase n.toNat)
    (by have := n.isLt; omega)
  refine ⟨decode_encode (.drw x y n), _, s.bytesFrom s.dataBase n.toNat, h, hlen, fun k hk => s.bytesFrom_getElem hk,
    hcell, ?flag, fun z hz => State.reg_setReg_other _ hz _, rfl, .of_withParts rfl⟩
  case flag =>
    rw [State.reg_advance, State.drawAt, State.reg_setReg_same, ← hcoll]
    cases (drawSprite s.fb (s.reg x).toNat (s.reg y).toNat (s.bytesFrom s.dataBase n.toNat)).collision
    · exact .inr ⟨rfl, Bool.false_ne_true⟩
    · exact .inl ⟨rfl, rfl⟩

end Sys2Proof.Machine
